-- ==== Sys2Proof/Word.lean ====
section
/-! DEFINITION. The word and value types of the core (spec/00_scope.md R8, R10). -/

namespace Sys2Proof

/-- One byte of a request or of a message (20_memory.md R50). -/
abbrev Byte := BitVec 8
/-- 21-bit payload of a codeword (R10, 30_encoding.md R81). -/
abbrev Payload := BitVec 21
/-- The ten BCH check bits (R81). -/
abbrev CheckBits := BitVec 10
/-- A 32-bit codeword (R10, R81). -/
abbrev Codeword := BitVec 32
/-- 20 consecutive bits of the flat message bit string (R10, R85). -/
abbrev Chunk := BitVec 20
/-- A GPIO pin number 0..255 (R10). -/
abbrev Gpio := BitVec 8
/-- A finite sequence of bits, element 0 transmitted first (R10, 20_memory.md R52). -/
abbrev Bits := List Bool
/-- A batch: sixteen codewords in slot order (R10, 30_encoding.md R87); `Instr.wellFormed` checks the sixteen. -/
abbrev Batch := List Codeword

/-- Output driver mode (R10). -/
inductive OutputMode where
  | pushPull
  | openDrain
  deriving DecidableEq, Repr, Inhabited

/-- Drive polarity: the one value the source names, or any other encoding (R10, 30_encoding.md R103). -/
inductive DrivePolarity where
  | driveOneLow
  | other (n : Nat)
  deriving DecidableEq, Repr, Inhabited

/-- What the core does to a pin (R10); `hiZ` is released, floating, input. -/
inductive PinState where
  | driveHigh
  | driveLow
  | hiZ
  deriving DecidableEq, Repr, Inhabited

/-- A pulse descriptor: the level of a run and its duration in ticks of 1 µs (R10, 30_encoding.md R89). -/
structure Desc where
  level : Bool
  dur : Nat
  deriving DecidableEq, Repr, Inhabited

/-- A configuration of the timing peripheral (R10, 10_state.md R24). -/
structure Cfg where
  pin : Gpio
  mode : OutputMode
  idleHigh : Bool
  deriving DecidableEq, Repr, Inhabited

/-- A transmission job, an immutable snapshot (R10, 10_state.md R28). -/
structure Job where
  bits : Bits
  baud : Nat
  gpio : Gpio
  mode : OutputMode
  idleHigh : Bool
  drive : DrivePolarity
  deriving DecidableEq, Repr, Inhabited

/-- The transmitter state flag (R10, 10_state.md R21). -/
inductive TxState where
  | idle
  | busy
  deriving DecidableEq, Repr, Inhabited

/-- A completion notification (R10, 10_state.md R26). -/
inductive Note where
  | txDone
  | txFail
  deriving DecidableEq, Repr, Inhabited

/-- Result of an enqueue (R10). -/
inductive EnqResult where
  | queued
  | busy
  | allocFail
  | invalid
  deriving DecidableEq, Repr, Inhabited

/-- A hardware failure of a transmission (60_exceptions.md R220 codes 5 to 7, R224). -/
inductive HwCause where
  | configFail
  | writeFail
  | timeout
  deriving DecidableEq, Repr, Inhabited

/-- Result of `transmit` (R10). -/
inductive TxResult where
  | ok
  | fail (cause : HwCause)
  | busyRejected
  deriving DecidableEq, Repr, Inhabited

/-- A yes or no of the peripheral (R7). -/
inductive HwReply where
  | ok
  | fail
  deriving DecidableEq, Repr, Inhabited

/-- How the bounded wait for completion ended (R7, 43_waveform_transmitter.md R184). -/
inductive HwWait where
  | done
  | timeout
  deriving DecidableEq, Repr, Inhabited

/-- The hardware oracle's value for one transmission (R7). -/
structure HwOutcome where
  cfg : HwReply
  write : HwReply
  wait : HwWait
  reinit : HwReply
  emitted : Nat
  deriving DecidableEq, Repr, Inhabited

/-- An element of the observation log of the pins (10_state.md R27). -/
inductive WaveItem where
  | pulse (pin : Gpio) (state : PinState) (dur : Nat)
  | set (pin : Gpio) (state : PinState)
  | partialPulse (pin : Gpio)
  deriving DecidableEq, Repr, Inhabited

end Sys2Proof
end

