-- ==== Sys2Proof/Config.lean ====
section
/-! DEFINITION. The parameters of the core (spec/00_scope.md R4): what the spec fixes, what it leaves OPEN, and the
free values. -/

namespace Sys2Proof

/-- `GEN = 0x769` (R4, 40_codeword_encoder.md R120), in the width of the working register. -/
def Config.gen : BitVec 31 := 0x769#31
/-- The batch synchronisation codeword (R4, 30_encoding.md R86). -/
def Config.sync : Codeword := 0x7CD215D8#32
/-- The idle codeword (R4, 30_encoding.md R86). -/
def Config.idle : Codeword := 0x7A89C197#32
/-- Codeword slots per batch (R4, 30_encoding.md R87): 8 frames of 2. -/
abbrev Config.batchSlots : Nat := 16
/-- Message bits per message codeword (R4). -/
abbrev Config.chunkBits : Nat := 20
/-- Bits taken from each message character (R4). -/
abbrev Config.charBits : Nat := 7
/-- Cap on batches per transmission (R4, decision D6). -/
abbrev Config.maxBatches : Nat := 10
/-- Largest duration of one pulse descriptor, in ticks (R4). -/
abbrev Config.maxPulseTicks : Nat := 32767
/-- Ticks per second (R4, `TICK_HZ`). -/
abbrev Config.tickHz : Nat := 1000000
/-- Bauds accepted at the external port (R4, `BAUD_SET`). -/
def Config.baudSet : List Nat := [512, 1200, 2400]
/-- The drive polarity captured into every job (R4, decision D17). -/
def Config.drivePolarity : DrivePolarity := .driveOneLow

/-- The table `IDLE_POLICY(mode, idleHigh)` (R4, 43_waveform_transmitter.md R178). -/
structure IdlePolicy where
  pushPullLow : PinState
  pushPullHigh : PinState
  openDrainLow : PinState
  openDrainHigh : PinState
  deriving DecidableEq, Repr

/-- The documented default table (R178, decision D19). -/
def IdlePolicy.standard : IdlePolicy where
  pushPullLow := .hiZ
  pushPullHigh := .hiZ
  openDrainLow := .hiZ
  openDrainHigh := .driveHigh

/-- The parameters R4 marks OPEN, as plain data; `gpioPins` lists the pins with `GPIO_VALID`. -/
structure Params where
  queueDepth : Nat
  preambleMax : Nat
  msgCap : Nat
  gpioPins : List Nat
  idlePolicy : IdlePolicy
  deriving DecidableEq, Repr

/-- The constraints R4 puts on the parameters: `2 ≤ QUEUE_DEPTH ≤ 8`, a message length fits its 16 bits,
pins are numbered 0..255. -/
def Params.wf (p : Params) : Bool :=
  2 ≤ p.queueDepth && p.queueDepth ≤ 8 && p.msgCap ≤ 65535 && p.gpioPins.all (· < 256)

/-- The defaults of R4. R4 gives no default for `GPIO_VALID`; pins 0..39 are a DESIGN CHOICE (log 8, unsafe),
the set the spec's vectors use (95_test_vectors.md section 3.6). -/
def Params.standard : Params where
  queueDepth := 4
  preambleMax := 4096
  msgCap := 65535
  gpioPins := List.range 40
  idlePolicy := .standard

/-- FREE VALUE (log 7): what the oracle of R7 answers at the n-th transmission for which `State.hwAnswers`
holds no answer. No body: nothing can be proved of it. -/
opaque Config.freeHw : Nat → HwOutcome

/-- FREE VALUE (log 9): how far `TX_TIMEOUT_US(n, T)` lies above its bound `n·T + 1`. -/
opaque Config.txTimeoutMargin : Nat → Nat → Nat

/-- `TX_TIMEOUT_US(n, T)`, which "must exceed n·T" (R4, 43_waveform_transmitter.md R184). -/
def Config.txTimeoutUs (n T : Nat) : Nat := n * T + 1 + Config.txTimeoutMargin n T

end Sys2Proof
end

