-- ==== Sys2Proof/Syntax.lean ====
section
/-! DEFINITION. The operations of the core (spec/30_encoding.md R100), one constructor per row of
spec/opcode_table.json. -/

namespace Sys2Proof

/-- The operands of `enqueueTransmission`, in the order of 30_encoding.md R96; `msgLen` is the length of
`message`. -/
structure PageRequest where
  capcode : BitVec 32
  functionBits : BitVec 8
  message : List Byte
  baud : BitVec 16
  invert : Bool
  idleHigh : Bool
  mode : OutputMode
  gpio : Gpio
  preambleBits : BitVec 16
  deriving DecidableEq, Repr

/-- An operation with its operands (R100). The `hw` of `TRANSMIT` is no operand of the request: it is the
oracle's (00_scope.md R7). -/
inductive Instr where
  | bchCheck (payload : Payload)
  | parity32 (word : BitVec 32)
  | cwEncode (payload : Payload)
  | cwAddress (capcode : BitVec 32) (function : BitVec 8)
  | cwMessage (chunk : Chunk)
  | textPack (message : List Byte)
  | batchBuild (capcode : BitVec 32) (function : BitVec 8) (message : List Byte)
  | bitsAssemble (batches : List Batch) (preambleBits : BitVec 16) (invert : Bool)
  | bitPeriod (baud : Nat)
  | rleEncode (bits : Bits) (period : Nat)
  | lineAction (mode : OutputMode) (drive : DrivePolarity) (bit : Bool)
  | idleAction (mode : OutputMode) (idleHigh : Bool)
  | transmit (job : Job)
  | enqueue (job : Job)
  | enqueueTransmission (request : PageRequest)
  | status
  deriving DecidableEq, Repr

/-- The identifiers of R100 by name. -/
inductive Op where
  | bchCheck | parity32 | cwEncode | cwAddress | cwMessage | textPack | batchBuild | bitsAssemble
  | bitPeriod | rleEncode | lineAction | idleAction | transmit | enqueue | enqueueTransmission | status
  deriving DecidableEq, Repr

/-- The operation a request is of. -/
def Instr.op : Instr → Op
  | .bchCheck _ => .bchCheck
  | .parity32 _ => .parity32
  | .cwEncode _ => .cwEncode
  | .cwAddress _ _ => .cwAddress
  | .cwMessage _ => .cwMessage
  | .textPack _ => .textPack
  | .batchBuild _ _ _ => .batchBuild
  | .bitsAssemble _ _ _ => .bitsAssemble
  | .bitPeriod _ => .bitPeriod
  | .rleEncode _ _ => .rleEncode
  | .lineAction _ _ _ => .lineAction
  | .idleAction _ _ => .idleAction
  | .transmit _ => .transmit
  | .enqueue _ => .enqueue
  | .enqueueTransmission _ => .enqueueTransmission
  | .status => .status

/-- Where an operation is issued (30_encoding.md R100, column "port"). -/
inductive Port where
  | external
  | component
  deriving DecidableEq, Repr

end Sys2Proof
end

