-- ==== Sys2Proof/WellFormed.lean ====
section
/-! DEFINITION. Which operations the request format can carry (spec/30_encoding.md R87, R95, R96, R98, R101):
the length fields and the batch width are the only limits beyond the operand types themselves. -/

namespace Sys2Proof

/-- How many binary digits a natural operand takes (0 for 0). -/
def natWidth (n : Nat) : Nat := if n = 0 then 0 else n.log2 + 1

/-- A natural operand has an 8-bit length field (log 2). -/
def natFits (n : Nat) : Bool := natWidth n < 256

/-- The one-bit drive polarity carries `driveOneLow` and `Other(1)` (30_encoding.md R95). -/
def driveFits : DrivePolarity → Bool
  | .driveOneLow => true
  | .other n => n == 1

/-- `msgLen` is 16 bits (R96). -/
def messageFits (message : List Byte) : Bool := message.length < 2 ^ 16

/-- The length field of a bit sequence is 32 bits (log 2). -/
def bitsFit (bits : Bits) : Bool := bits.length < 2 ^ 32

/-- The length field of a batch sequence is 16 bits (log 2); every batch has exactly 16 slots (R87). -/
def batchesFit (batches : List Batch) : Bool :=
  batches.length < 2 ^ 16 && batches.all (·.length == Config.batchSlots)

/-- The job record of `TRANSMIT` and `ENQUEUE` (R98). -/
def Job.fits (j : Job) : Bool := bitsFit j.bits && natFits j.baud && driveFits j.drive

/-- The request can be written in the format of R101. -/
def Instr.wellFormed : Instr → Bool
  | .bchCheck _ => true
  | .parity32 _ => true
  | .cwEncode _ => true
  | .cwAddress _ _ => true
  | .cwMessage _ => true
  | .textPack message => messageFits message
  | .batchBuild _ _ message => messageFits message
  | .bitsAssemble batches _ _ => batchesFit batches
  | .bitPeriod baud => natFits baud
  | .rleEncode bits period => bitsFit bits && natFits period
  | .lineAction _ drive _ => driveFits drive
  | .idleAction _ _ => true
  | .transmit job => job.fits
  | .enqueue job => job.fits
  | .enqueueTransmission request => messageFits request.message
  | .status => true

end Sys2Proof
end

