-- ==== Sys2Proof/Decode.lean ====
section
/-! DEFINITION. Requests as bytes (spec/30_encoding.md R95 to R104): the decoder, total on any bytes and rejecting by
name, then the encoder. Bits are taken most significant first throughout (20_memory.md R52; for requests DESIGN CHOICE,
log 1). -/

namespace Sys2Proof

/-! ### Bit strings -/

/-- The low `k` bits of `n`, most significant first (00_scope.md R8, "MSB first"). -/
def natToBits : Nat → Nat → Bits
  | 0, _ => []
  | k + 1, n => n.testBit k :: natToBits k n

/-- The number whose binary digits are the list, the first element the most significant. -/
def bitsToNat : Bits → Nat
  | [] => 0
  | b :: bs => b.toNat * 2 ^ bs.length + bitsToNat bs

/-- The bits of a word, most significant first (42_bitstream_assembler.md R161 for 32 bits). -/
def wordToBits {w : Nat} (v : BitVec w) : Bits := natToBits w v.toNat

/-- The word with the given bits, most significant first. -/
def bitsToWord (w : Nat) (l : Bits) : BitVec w := BitVec.ofNat w (bitsToNat l)

/-- The first `k` groups of `w` bits, each as a word. -/
def groups (w : Nat) : Nat → Bits → List (BitVec w)
  | 0, _ => []
  | k + 1, l => bitsToWord w (l.take w) :: groups w k (l.drop w)

/-- The bits of a byte string, byte 0 first. -/
def bytesToBits (bytes : List Byte) : Bits := bytes.flatMap wordToBits

/-- A bit string as bytes, the last byte filled up with 0 bits. -/
def bitsToBytes (l : Bits) : List Byte :=
  groups 8 ((l.length + 7) / 8) (l ++ List.replicate 7 false)

/-! ### Codes of the enumerated operands (30_encoding.md R95) -/

def OutputMode.code : OutputMode → Bool
  | .pushPull => false
  | .openDrain => true

def OutputMode.ofCode : Bool → OutputMode
  | false => .pushPull
  | true => .openDrain

/-- One bit: 0 is `driveOneLow`, 1 is `Other(1)` (R95). -/
def DrivePolarity.code : DrivePolarity → Bool
  | .driveOneLow => false
  | .other _ => true

def DrivePolarity.ofCode : Bool → DrivePolarity
  | false => .driveOneLow
  | true => .other 1

def TxState.code : TxState → BitVec 1
  | .idle => 0
  | .busy => 1

def Note.code : Note → BitVec 1
  | .txDone => 0
  | .txFail => 1

def EnqResult.code : EnqResult → BitVec 2
  | .queued => 0
  | .busy => 1
  | .allocFail => 2
  | .invalid => 3

/-! ### The operation map (30_encoding.md R100, spec/opcode_table.json; mask 0xFF in every row) -/

/-- (match, operation) in the table's order. -/
def opTable : List (Byte × Op) :=
  [(0x01#8, .bchCheck), (0x02#8, .parity32), (0x03#8, .cwEncode), (0x04#8, .cwAddress)] ++
  [(0x05#8, .cwMessage), (0x06#8, .textPack), (0x07#8, .batchBuild), (0x08#8, .bitsAssemble)] ++
  [(0x09#8, .bitPeriod), (0x0A#8, .rleEncode), (0x0B#8, .lineAction), (0x0C#8, .idleAction)] ++
  [(0x0D#8, .transmit), (0x0E#8, .enqueue), (0x10#8, .enqueueTransmission), (0x11#8, .status)]

/-- The operation of a header byte; none for the reserved identifiers 0x00, 0x0F, 0x12..0xFF (R102). -/
def Op.ofByte (h : Byte) : Option Op := (opTable.find? (fun row => row.1 == h)).map (·.2)

/-- The header byte of an operation (R101: header bits 7:0 = `op`). -/
def Op.code : Op → Byte
  | .bchCheck => 0x01
  | .parity32 => 0x02
  | .cwEncode => 0x03
  | .cwAddress => 0x04
  | .cwMessage => 0x05
  | .textPack => 0x06
  | .batchBuild => 0x07
  | .bitsAssemble => 0x08
  | .bitPeriod => 0x09
  | .rleEncode => 0x0A
  | .lineAction => 0x0B
  | .idleAction => 0x0C
  | .transmit => 0x0D
  | .enqueue => 0x0E
  | .enqueueTransmission => 0x10
  | .status => 0x11

/-- The two operations of the external port (R100); the others are component operations. -/
def Op.isExternal : Op → Bool
  | .enqueueTransmission => true
  | .status => true
  | _ => false

/-! ### Reading the fields of an operand record: each answers the value and the bits left over -/

/-- The next `n` bits. -/
def takeBits : Nat → Bits → Option (Bits × Bits)
  | 0, l => some ([], l)
  | _ + 1, [] => none
  | n + 1, b :: l => (takeBits n l).map fun r => (b :: r.1, r.2)

/-- A one-bit operand. -/
def takeFlag : Bits → Option (Bool × Bits)
  | [] => none
  | b :: l => some (b, l)

/-- An operand of fixed width `w` (R101). -/
def takeWord (w : Nat) (l : Bits) : Option (BitVec w × Bits) :=
  (takeBits w l).map fun r => (bitsToWord w r.1, r.2)

/-- `n` operands of width `w` in a row. -/
def takeWords (w : Nat) : Nat → Bits → Option (List (BitVec w) × Bits)
  | 0, l => some ([], l)
  | n + 1, l => do
    let r ← takeWord w l
    let q ← takeWords w n r.2
    some (r.1 :: q.1, q.2)

/-- A natural operand: its number of binary digits in 8 bits, then the digits (DESIGN CHOICE, log 2). -/
def takeNat (l : Bits) : Option (Nat × Bits) := do
  let n ← takeWord 8 l
  let r ← takeBits n.1.toNat n.2
  some (bitsToNat r.1, r.2)

/-- `msgLen` (16 bits), then the bytes of the message (R96). -/
def takeMessage (l : Bits) : Option (List Byte × Bits) := do
  let n ← takeWord 16 l
  takeWords 8 n.1.toNat n.2

/-- A bit sequence preceded by its length in 32 bits (R101, R104; the 32 is a DESIGN CHOICE, log 2). -/
def takeBitSeq (l : Bits) : Option (Bits × Bits) := do
  let n ← takeWord 32 l
  takeBits n.1.toNat n.2

/-- `n` batches of sixteen codewords. -/
def takeBatchList : Nat → Bits → Option (List Batch × Bits)
  | 0, l => some ([], l)
  | n + 1, l => do
    let r ← takeWords 32 Config.batchSlots l
    let q ← takeBatchList n r.2
    some (r.1 :: q.1, q.2)

/-- A batch sequence preceded by its length in 16 bits (R101; the 16 is a DESIGN CHOICE, log 2). -/
def takeBatches (l : Bits) : Option (List Batch × Bits) := do
  let n ← takeWord 16 l
  takeBatchList n.1.toNat n.2

/-- The job record: bits, baud, gpio, outputMode, idleHigh, drivePolarity (R98). -/
def takeJob (l : Bits) : Option (Job × Bits) := do
  let bits ← takeBitSeq l
  let baud ← takeNat bits.2
  let gpio ← takeWord 8 baud.2
  let mode ← takeFlag gpio.2
  let idleHigh ← takeFlag mode.2
  let drive ← takeFlag idleHigh.2
  some ({ bits := bits.1, baud := baud.1, gpio := gpio.1, mode := .ofCode mode.1,
          idleHigh := idleHigh.1, drive := .ofCode drive.1 }, drive.2)

/-- The record of `enqueueTransmission`, in the order of R96. -/
def takePage (l : Bits) : Option (PageRequest × Bits) := do
  let capcode ← takeWord 32 l
  let function ← takeWord 8 capcode.2
  let message ← takeMessage function.2
  let baud ← takeWord 16 message.2
  let invert ← takeFlag baud.2
  let idleHigh ← takeFlag invert.2
  let mode ← takeFlag idleHigh.2
  let gpio ← takeWord 8 mode.2
  let preambleBits ← takeWord 16 gpio.2
  some ({ capcode := capcode.1, functionBits := function.1, message := message.1, baud := baud.1,
          invert := invert.1, idleHigh := idleHigh.1, mode := .ofCode mode.1, gpio := gpio.1,
          preambleBits := preambleBits.1 }, preambleBits.2)

/-! ### The decoder -/

/-- The operand record of an operation, operands in the order of R100. -/
def decodeRecord (op : Op) (l : Bits) : Option (Instr × Bits) :=
  match op with
  | .bchCheck => do
    let p ← takeWord 21 l
    some (.bchCheck p.1, p.2)
  | .parity32 => do
    let w ← takeWord 32 l
    some (.parity32 w.1, w.2)
  | .cwEncode => do
    let p ← takeWord 21 l
    some (.cwEncode p.1, p.2)
  | .cwAddress => do
    let c ← takeWord 32 l
    let f ← takeWord 8 c.2
    some (.cwAddress c.1 f.1, f.2)
  | .cwMessage => do
    let c ← takeWord 20 l
    some (.cwMessage c.1, c.2)
  | .textPack => do
    let m ← takeMessage l
    some (.textPack m.1, m.2)
  | .batchBuild => do
    let c ← takeWord 32 l
    let f ← takeWord 8 c.2
    let m ← takeMessage f.2
    some (.batchBuild c.1 f.1 m.1, m.2)
  | .bitsAssemble => do
    let b ← takeBatches l
    let p ← takeWord 16 b.2
    let i ← takeFlag p.2
    some (.bitsAssemble b.1 p.1 i.1, i.2)
  | .bitPeriod => do
    let n ← takeNat l
    some (.bitPeriod n.1, n.2)
  | .rleEncode => do
    let b ← takeBitSeq l
    let t ← takeNat b.2
    some (.rleEncode b.1 t.1, t.2)
  | .lineAction => do
    let m ← takeFlag l
    let d ← takeFlag m.2
    let b ← takeFlag d.2
    some (.lineAction (.ofCode m.1) (.ofCode d.1) b.1, b.2)
  | .idleAction => do
    let m ← takeFlag l
    let h ← takeFlag m.2
    some (.idleAction (.ofCode m.1) h.1, h.2)
  | .transmit => do
    let j ← takeJob l
    some (.transmit j.1, j.2)
  | .enqueue => do
    let j ← takeJob l
    some (.enqueue j.1, j.2)
  | .enqueueTransmission => do
    let r ← takePage l
    some (.enqueueTransmission r.1, r.2)
  | .status => some (.status, l)

/-- What a byte string is as a request. -/
inductive Decoded where
  /-- An operation, and the bits after its record. -/
  | instr (i : Instr) (rest : Bits)
  /-- A reserved identifier (R102). -/
  | reservedOp (op : Byte)
  /-- The operand record ends too early, or there is not even a header (log 3). -/
  | incomplete
  deriving DecidableEq, Repr

/-- Read a request: one header byte, then the operand record (R101). Total on any bytes. -/
def decode (bytes : List Byte) : Decoded :=
  match bytes with
  | [] => .incomplete
  | h :: record =>
    match Op.ofByte h with
    | none => .reservedOp h
    | some op =>
      match decodeRecord op (bytesToBits record) with
      | none => .incomplete
      | some (i, rest) => .instr i rest

/-! ### The encoder -/

def natField (n : Nat) : Bits :=
  wordToBits (BitVec.ofNat 8 (natWidth n)) ++ natToBits (natWidth n) n

def messageField (message : List Byte) : Bits :=
  wordToBits (BitVec.ofNat 16 message.length) ++ message.flatMap wordToBits

def bitSeqField (bits : Bits) : Bits := wordToBits (BitVec.ofNat 32 bits.length) ++ bits

def batchesField (batches : List Batch) : Bits :=
  wordToBits (BitVec.ofNat 16 batches.length) ++ batches.flatMap (·.flatMap wordToBits)

def jobField (j : Job) : Bits :=
  bitSeqField j.bits ++ natField j.baud ++ wordToBits j.gpio ++
    [j.mode.code, j.idleHigh, j.drive.code]

def pageField (r : PageRequest) : Bits :=
  wordToBits r.capcode ++ wordToBits r.functionBits ++ messageField r.message ++ wordToBits r.baud ++
    [r.invert, r.idleHigh, r.mode.code] ++ wordToBits r.gpio ++ wordToBits r.preambleBits

/-- The operand record of a request: the operands in the order of R100, each in its width. -/
def Instr.record : Instr → Bits
  | .bchCheck payload => wordToBits payload
  | .parity32 word => wordToBits word
  | .cwEncode payload => wordToBits payload
  | .cwAddress capcode function => wordToBits capcode ++ wordToBits function
  | .cwMessage chunk => wordToBits chunk
  | .textPack message => messageField message
  | .batchBuild capcode function message =>
    wordToBits capcode ++ wordToBits function ++ messageField message
  | .bitsAssemble batches preambleBits invert =>
    batchesField batches ++ wordToBits preambleBits ++ [invert]
  | .bitPeriod baud => natField baud
  | .rleEncode bits period => bitSeqField bits ++ natField period
  | .lineAction mode drive bit => [mode.code, drive.code, bit]
  | .idleAction mode idleHigh => [mode.code, idleHigh]
  | .transmit job => jobField job
  | .enqueue job => jobField job
  | .enqueueTransmission request => pageField request
  | .status => []

/-- The bytes of a well-formed request (R101). -/
def encode (i : Instr) : List Byte := i.op.code :: bitsToBytes i.record

/-! ### The table's words -/

/-- A word of spec/opcode_table.json as request bytes: its byte k is bits 8k+7..8k, and every operand bit
above it is 0. A request whose length fields are 0 is at most 15 bytes long. -/
def tableBytes (nbits w : Nat) : List Byte :=
  (List.range (nbits / 8)).map (fun k => BitVec.ofNat 8 (w >>> (8 * k))) ++ List.replicate 64 0#8

/-- The operation the decoder reads from a word of the opcode table (the host's interface). -/
def decodeTableWord (nbits w : Nat) : Option Instr :=
  match decode (tableBytes nbits w) with
  | .instr i _ => some i
  | .reservedOp _ => none
  | .incomplete => none

end Sys2Proof
end

