-- ==== Sys2Proof/Machine/State.lean ====
section
/-! DEFINITION. The architectural state (spec/10_state.md R20), the model's own fields beside it, the reasons to stop,
and the state after reset (R40). -/

namespace Sys2Proof.Machine

/-- The pins as (pin number, state) pairs; a pin not listed is `HiZ`, its reset value (10_state.md R25, R40; log 12). -/
abbrev PinMap := List (Nat × PinState)

/-- The one canonical form: pin numbers strictly rising, nothing listed as `HiZ`. -/
def PinMap.wf : PinMap → Bool
  | [] => true
  | [e] => e.2 != .hiZ
  | e :: f :: rest => e.2 != .hiZ && e.1 < f.1 && PinMap.wf (f :: rest)

/-- The consumer's phase (R23). -/
inductive Phase where
  | waiting
  | transmitting (job : Job)
  deriving DecidableEq, Repr

/-- What an operation returned (the result column of 30_encoding.md R100). -/
inductive Answer where
  | check (c : CheckBits)
  | parity (b : Bool)
  | codeword (w : Codeword)
  | chunks (l : List Chunk)
  | batches (l : List Batch) (truncated : Bool)
  | bits (l : Bits)
  /-- `BITS_ASSEMBLE` raised `AllocFail` (42_bitstream_assembler.md R162). -/
  | allocFail
  | period (ticks : Nat)
  | descs (l : List Desc)
  | pinState (p : PinState)
  | tx (r : TxResult)
  | enqueue (r : EnqResult)
  | page (r : EnqResult) (truncated : Bool)
  | status (t : TxState)
  /-- A reserved `op`, or a component `op` at the external port (30_encoding.md R102). -/
  | invalid
  deriving DecidableEq, Repr

/-- What the outside brings, one item per step (20_memory.md R63; log 5). -/
inductive Input where
  /-- A request arrives at a port, as the bytes of 30_encoding.md R101. -/
  | request (port : Port) (bytes : List Byte)
  /-- The consumer gets its turn (44_scheduler.md R205 to R207). -/
  | consumer
  /-- Initialisation (70_reset_and_hazards.md R250). -/
  | reset
  deriving DecidableEq, Repr

/-- The machine's state. -/
structure State where
  /-- R21 -/
  txState : TxState
  /-- R23 -/
  phase : Phase
  /-- R22; index 0 is the head -/
  queue : List Job
  /-- R24 -/
  lastCfg : Option Cfg
  /-- R25 -/
  pin : PinMap
  /-- R26; append-only -/
  notes : List Note
  /-- R27; append-only, no rule reads it -/
  wave : List WaveItem
  /-- The parameters of 00_scope.md R4 marked OPEN; no step changes them (70_reset_and_hazards.md R251 (e); log 8). -/
  params : Params
  /-- MODEL's own (log 5): what the outside brings next, oldest first. -/
  inputs : List Input
  /-- MODEL's own (log 6): what the operations returned, oldest first; append-only, no rule reads it. -/
  answers : List Answer
  /-- MODEL's own (log 7): the pulse engine's answers to the next transmissions (00_scope.md R7). -/
  hwAnswers : List HwOutcome
  /-- MODEL's own (log 7): how many free oracle values were drawn. -/
  hwDraws : Nat
  deriving DecidableEq, Repr

/-- No step of this core stops with a fault: every failure of the spec is a result (60_exceptions.md R220, R226).
The type has no constructor. -/
inductive Fault where
  deriving DecidableEq, Repr

/-- Why a step has no meaning. Each is SAFE: the machine stops where the spec says `refuse` or says nothing. -/
inductive Refusal where
  /-- An operation whose arm in `exec` has no meaning yet. Safe. No arm raises it. -/
  | notModelled (mnemonic : String)
  /-- Open-drain with a drive polarity other than `driveOneLow`, the missing row of the truth table
  (43_waveform_transmitter.md R176, R180: "refuse"). Raised by LINE_ACTION, TRANSMIT and the consumer's finish step. Safe. -/
  | openDrainPolarity
  /-- A baud of 0, or one whose period rounds to 0 (R170: "refuse"). Raised by BIT_PERIOD, TRANSMIT and the finish
  step. Safe. -/
  | noBitPeriod (baud : Nat)
  /-- A bit period of 0 for a non-empty bit sequence: outside the operand's range `T ≥ 1` (R174), its descriptors
  would have the reserved duration 0 (30_encoding.md R89; log 10). Raised by RLE_ENCODE. Safe. -/
  | zeroPeriod
  /-- The bytes of a request end before its operand record does (log 3). Raised by fetching a request. Safe. -/
  | incompleteRequest
  deriving DecidableEq, Repr

/-- The state after reset (10_state.md R40, 70_reset_and_hazards.md R250). The last five fields are the model's own
(logs 5 to 8). -/
def State.reset : State where
  txState := .idle
  phase := .waiting
  queue := []
  lastCfg := none
  pin := []
  notes := []
  wave := []
  params := .standard
  inputs := []
  answers := []
  hwAnswers := []
  hwDraws := 0

end Sys2Proof.Machine
end

