-- ==== Sys2Proof/Machine/Ops.lean ====
section
/-! DEFINITION. The named operations over the state: pins, the streams, the oracle, and the entry into and return from a
hardware failure (spec/43_waveform_transmitter.md R179, R182; 60_exceptions.md R226, R227). -/

namespace Sys2Proof.Machine

/-! ### The pin space (20_memory.md R50, 10_state.md R25) -/

/-- The state of a pin. -/
def pinRead (m : PinMap) (p : Nat) : PinState :=
  match m with
  | [] => .hiZ
  | (q, st) :: rest => if q = p then st else pinRead rest p

/-- The map without the pin's entry. -/
def pinErase (m : PinMap) (p : Nat) : PinMap := m.filter fun e => e.1 != p

/-- The entry put in its place in the rising order. -/
def pinInsert (p : Nat) (st : PinState) : PinMap → PinMap
  | [] => [(p, st)]
  | e :: rest => if p < e.1 then (p, st) :: e :: rest else e :: pinInsert p st rest

/-- Write a pin; writing what an unlisted pin reads as removes the entry. -/
def pinWrite (m : PinMap) (p : Nat) (st : PinState) : PinMap :=
  if st = .hiZ then pinErase m p else pinInsert p st (pinErase m p)

/-! ### Updates of the state, one field each -/

def setTxState (t : TxState) (s : State) : State := { s with txState := t }
def setPhase (p : Phase) (s : State) : State := { s with phase := p }
def setQueue (q : List Job) (s : State) : State := { s with queue := q }
def setLastCfg (c : Option Cfg) (s : State) : State := { s with lastCfg := c }
def writePin (p : Gpio) (st : PinState) (s : State) : State := { s with pin := pinWrite s.pin p.toNat st }
def logWave (items : List WaveItem) (s : State) : State := { s with wave := s.wave ++ items }
def notify (n : Note) (s : State) : State := { s with notes := s.notes ++ [n] }
def answer (a : Answer) (s : State) : State := { s with answers := s.answers ++ [a] }
def setInputs (l : List Input) (s : State) : State := { s with inputs := l }

/-! ### Parameters (00_scope.md R4) -/

/-- `GPIO_VALID(pin)`. -/
def gpioValid (s : State) (p : Gpio) : Bool := s.params.gpioPins.contains p.toNat

/-- `IDLE_POLICY(mode, idleHigh)`. -/
def idlePolicy (p : IdlePolicy) (mode : OutputMode) (idleHigh : Bool) : PinState :=
  match mode, idleHigh with
  | .pushPull, false => p.pushPullLow
  | .pushPull, true => p.pushPullHigh
  | .openDrain, false => p.openDrainLow
  | .openDrain, true => p.openDrainHigh

/-! ### The oracle (00_scope.md R7) -/

/-- The oracle's value for this transmission: the next one fixed in `hwAnswers`, else the free value (log 7). -/
def hwOf (s : State) : HwOutcome :=
  match s.hwAnswers with
  | h :: _ => h
  | [] => Config.freeHw s.hwDraws

/-- The state after the value was drawn. -/
def afterDraw (s : State) : State :=
  match s.hwAnswers with
  | _ :: rest => { s with hwAnswers := rest }
  | [] => { s with hwDraws := s.hwDraws + 1 }

/-! ### Pin actions of a job -/

/-- A pin write the consumer makes itself: the pin, and `Set(pin, state)` in the log (10_state.md R27). -/
def setPin (p : Gpio) (st : PinState) (s : State) : State := logWave [.set p st] (writePin p st s)

/-- The pin state a job's line is forced to (R178). -/
def jobIdle (job : Job) (s : State) : PinState := idlePolicy s.params.idlePolicy job.mode job.idleHigh

/-- The configuration a job asks for (R179). -/
def jobCfg (job : Job) : Cfg where
  pin := job.gpio
  mode := job.mode
  idleHigh := job.idleHigh

/-- Force the line to its idle state, provided the pin exists (R180 step 1, R181, R182). -/
def assertIdle (job : Job) (s : State) : State :=
  if gpioValid s job.gpio then setPin job.gpio (jobIdle job s) s else s

/-! ### Configuration of the peripheral (R179) -/

/-- The old pin is handed back when the new configuration names another one. -/
def releaseOld (cfg : Cfg) (s : State) : State :=
  match s.lastCfg with
  | some old => if old.pin = cfg.pin then s else setPin old.pin .hiZ s
  | none => s

/-- `configure(cfg, hw)`; the Bool says whether the peripheral is configured (false: `ConfigFail` is raised). -/
def configure (cfg : Cfg) (hw : HwOutcome) (s : State) : State × Bool :=
  if s.lastCfg = some cfg then (s, true)
  else if gpioValid s cfg.pin = false ∨ hw.cfg = .fail then (setLastCfg none (releaseOld cfg s), false)
  else (setLastCfg (some cfg) (releaseOld cfg s), true)

/-! ### Failure entry and return (R182, 60_exceptions.md R226, R227) -/

/-- What the one re-initialisation attempt leaves in `last_cfg` (R182). -/
def reinitialise (job : Job) (hw : HwOutcome) (s : State) : State :=
  if gpioValid s job.gpio = true ∧ hw.reinit = .ok then setLastCfg (some (jobCfg job)) s else setLastCfg none s

/-- The handling of `ConfigFail`, `WriteFail` and `Timeout` inside `transmit`: teardown and one re-initialisation, then
the forced idle state, then `return Fail(cause)` (R182). -/
def failTransmit (cause : HwCause) (job : Job) (hw : HwOutcome) (s : State) : State × TxResult :=
  (assertIdle job (reinitialise job hw s), .fail cause)

/-- The return to `Idle`, unconditional after success and failure alike (R180 step 6, R183, R227). -/
def returnIdle (s : State) : State := setTxState .idle s

/-- Initialisation at any time: the state of R40; queued jobs and a job in flight are discarded without a notification
(70_reset_and_hazards.md R250). The parameters stay (R251 (e)), and so does what the outside still brings (log 11). -/
def reinitCore (s : State) : State :=
  { State.reset with params := s.params, inputs := s.inputs, hwAnswers := s.hwAnswers, hwDraws := s.hwDraws }

end Sys2Proof.Machine
end

