-- ==== Sys2Proof/Machine/Operands.lean ====
section
/-! DEFINITION. Operand assembly and the data formats (spec/30_encoding.md R80 to R89, R98). -/

namespace Sys2Proof.Machine

/-- `frame = capcode & 0x7` (R80). -/
def frameOf (capcode : BitVec 32) : Nat := (capcode &&& 7#32).toNat

/-- `address = (capcode >> 3) & 0x3FFFF` (R80, R84). -/
def addressOf (capcode : BitVec 32) : BitVec 21 := ((capcode >>> 3) &&& 0x3FFFF#32).setWidth 21

/-- Address payload: `(address << 2) | (function & 0x3)` (R84). -/
def addressPayload (capcode : BitVec 32) (function : BitVec 8) : Payload :=
  (addressOf capcode <<< 2) ||| (function &&& 3#8).setWidth 21

/-- Message payload: `0x100000 | chunk` (R85). -/
def messagePayload (chunk : Chunk) : Payload := 0x100000#21 ||| chunk.setWidth 21

/-- The seven bits of a message byte, most significant of the seven first (41_batch_builder.md R141, R142: bit 7 is
masked off). -/
def charBits (c : Byte) : Bits := natToBits Config.charBits (c &&& 0x7F#8).toNat

/-- The flat bit string of a message before padding (R141). -/
def flatBits (message : List Byte) : Bits := message.flatMap charBits

/-- `flat` padded to whole chunks; an empty message is one chunk of zeros (R141, 20_memory.md R55 (a)). -/
def padChunks (flat : Bits) : Bits :=
  if flat = [] then List.replicate Config.chunkBits false
  else flat ++ List.replicate ((Config.chunkBits - flat.length % Config.chunkBits) % Config.chunkBits) false

/-- The 16-bit form of a pulse descriptor: level in bit 15, duration in bits 14:0 (R89). -/
def descPack (d : Desc) : BitVec 16 :=
  ((BitVec.ofBool d.level).setWidth 16 <<< 15) ||| (BitVec.ofNat 15 d.dur).setWidth 16

/-- The job `ENQUEUE_TRANSMISSION` makes of its operands and the bit stream (R28, 44_scheduler.md R203). -/
def jobOf (r : PageRequest) (bits : Bits) : Job where
  bits := bits
  baud := r.baud.toNat
  gpio := r.gpio
  mode := r.mode
  idleHigh := r.idleHigh
  drive := Config.drivePolarity

end Sys2Proof.Machine
end

