-- ==== Sys2Proof/Machine/Flags.lean ====
section
/-! DEFINITION. The one-bit results and the tests of the core: parity (spec/40_codeword_encoder.md R122), the boundary
validation (60_exceptions.md R223), the notification of a result (44_scheduler.md R207), the failure codes
(60_exceptions.md R220). `tx_state` is the only stored flag (10_state.md R21). -/

namespace Sys2Proof.Machine

/-- The XOR of the low `n` bits of a word. -/
def xorBits (w : BitVec 32) : Nat → Bool
  | 0 => false
  | n + 1 => w.getLsbD n ^^ xorBits w n

/-- `PARITY32`: the XOR of all 32 bits (R122). -/
def parity32 (w : BitVec 32) : Bool := xorBits w 32

/-- The operands of `ENQUEUE_TRANSMISSION` outside the legal values of 30_encoding.md R96 (R103, R223). -/
def pageInvalid (p : Params) (r : PageRequest) : Bool :=
  r.capcode = 0 ∨ 3 < r.functionBits.toNat ∨ ¬ Config.baudSet.contains r.baud.toNat ∨ p.msgCap < r.message.length

/-- `preambleBits > PREAMBLE_MAX`, the condition of `AllocFail` (42_bitstream_assembler.md R162, R221). -/
def allocFails (p : Params) (preambleBits : BitVec 16) : Bool := p.preambleMax < preambleBits.toNat

/-- The notification of a finished job (R207). -/
def noteOf : TxResult → Note
  | .ok => .txDone
  | .fail _ => .txFail
  | .busyRejected => .txFail

/-- The code of a hardware failure (R220). -/
def causeCode : HwCause → Nat
  | .configFail => 5
  | .writeFail => 6
  | .timeout => 7

/-- The failure code an answer reports, if it reports a failure (R220). -/
def failureCode : Answer → Option Nat
  | .invalid => some 1
  | .page .invalid _ => some 1
  | .allocFail => some 2
  | .page .allocFail _ => some 2
  | .enqueue .busy => some 3
  | .page .busy _ => some 3
  | .tx .busyRejected => some 4
  | .tx (.fail c) => some (causeCode c)
  | _ => none

end Sys2Proof.Machine
end

