-- ==== Sys2Proof/Machine/CodewordEncoder.lean ====
section
/-! DEFINITION. The Codeword Encoder (spec/40_codeword_encoder.md): `BCH_CHECK`, `PARITY32`, `CW_ENCODE`, `CW_ADDRESS`,
`CW_MESSAGE`. -/

namespace Sys2Proof.Machine

/-- The reduction loop of R121 for the bit positions `n + 9` down to 10: `GEN << (p − 10)` is XORed in where the
register, as the earlier iterations left it, has bit `p` set. -/
def bchReduce : Nat → BitVec 31 → BitVec 31
  | 0, reg => reg
  | n + 1, reg => bchReduce n (if reg.getLsbD (n + 10) then reg ^^^ (Config.gen <<< n) else reg)

/-- `BCH_CHECK` (R121): the 21 positions 30 down to 10. -/
def bchCheck (payload : Payload) : CheckBits :=
  (bchReduce 21 (payload.setWidth 31 <<< 10)).setWidth 10

/-- The word before its parity bit: `(payload << 11) | (check << 1)` (R123). -/
def cwBody (payload : Payload) : Codeword :=
  (payload.setWidth 32 <<< 11) ||| ((bchCheck payload).setWidth 32 <<< 1)

/-- `CW_ENCODE` (R123). -/
def cwEncode (payload : Payload) : Codeword :=
  cwBody payload ||| (BitVec.ofBool (parity32 (cwBody payload))).setWidth 32

/-- `CW_ADDRESS` (R124). -/
def cwAddress (capcode : BitVec 32) (function : BitVec 8) : Codeword := cwEncode (addressPayload capcode function)

/-- `CW_MESSAGE` (R125). -/
def cwMessage (chunk : Chunk) : Codeword := cwEncode (messagePayload chunk)

/-- R121. -/
def execBchCheck (payload : Payload) (s : State) : Host.Outcome State Fault Refusal :=
  .next (answer (.check (bchCheck payload)) s)

/-- R122. -/
def execParity32 (word : BitVec 32) (s : State) : Host.Outcome State Fault Refusal :=
  .next (answer (.parity (parity32 word)) s)

/-- R123. -/
def execCwEncode (payload : Payload) (s : State) : Host.Outcome State Fault Refusal :=
  .next (answer (.codeword (cwEncode payload)) s)

/-- R124. -/
def execCwAddress (capcode : BitVec 32) (function : BitVec 8) (s : State) : Host.Outcome State Fault Refusal :=
  .next (answer (.codeword (cwAddress capcode function)) s)

/-- R125. -/
def execCwMessage (chunk : Chunk) (s : State) : Host.Outcome State Fault Refusal :=
  .next (answer (.codeword (cwMessage chunk)) s)

end Sys2Proof.Machine
end

