-- ==== Sys2Proof/Machine/BatchBuilder.lean ====
section
/-! DEFINITION. The POCSAG Batch Builder (spec/41_batch_builder.md): `TEXT_PACK`, `BATCH_BUILD`. -/

namespace Sys2Proof.Machine

/-- `TEXT_PACK` (R141). -/
def textPack (message : List Byte) : List Chunk :=
  groups Config.chunkBits ((padChunks (flatBits message)).length / Config.chunkBits) (padChunks (flatBits message))

/-- A batch of IDLE in all sixteen slots (R145). -/
def idleBatch : Batch := List.replicate Config.batchSlots Config.idle

/-- Batch 0 before the message: IDLE, and the address codeword at slot `2·frame` (R145, 20_memory.md R56). -/
def firstBatch (capcode : BitVec 32) (function : BitVec 8) : Batch :=
  idleBatch.set (2 * frameOf capcode) (cwAddress capcode function)

/-- The placement loop of R145: the chunks still to place, the full batches, the batch being filled and the slot cursor.
A continuation batch is opened only when a codeword is waiting for it; at the cap the rest is dropped and `truncated`
is reported. -/
def placeChunks : List Chunk → List Batch → Batch → Nat → List Batch × Bool
  | [], done, cur, _ => (done ++ [cur], false)
  | c :: cs, done, cur, slot =>
    if slot = Config.batchSlots then
      if done.length + 1 = Config.maxBatches then (done ++ [cur], true)
      else placeChunks cs (done ++ [cur]) (idleBatch.set 0 (cwMessage c)) 1
    else placeChunks cs done (cur.set slot (cwMessage c)) (slot + 1)

/-- `BATCH_BUILD` (R145): the batches and `truncated`. -/
def batchBuild (capcode : BitVec 32) (function : BitVec 8) (message : List Byte) : List Batch × Bool :=
  placeChunks (textPack message) [] (firstBatch capcode function) (2 * frameOf capcode + 1)

/-- R141. -/
def execTextPack (message : List Byte) (s : State) : Host.Outcome State Fault Refusal :=
  .next (answer (.chunks (textPack message)) s)

/-- R145. -/
def execBatchBuild (capcode : BitVec 32) (function : BitVec 8) (message : List Byte) (s : State) :
    Host.Outcome State Fault Refusal :=
  .next (answer (.batches (batchBuild capcode function message).1 (batchBuild capcode function message).2) s)

end Sys2Proof.Machine
end

