-- ==== Sys2Proof/Machine/BitstreamAssembler.lean ====
section
/-! DEFINITION. The Bitstream Assembler (spec/42_bitstream_assembler.md): `BITS_ASSEMBLE`. -/

namespace Sys2Proof.Machine

/-- `preamble(n)`: element k is 1 when k is even (R160). -/
def preamble (n : Nat) : Bits := (List.range n).map fun k => k % 2 == 0

/-- `W(w)`: the word, complemented when `invert` is set (R162). -/
def lineWord (invert : Bool) (w : Codeword) : Codeword := if invert then w ^^^ 0xFFFFFFFF#32 else w

/-- A batch on the line: SYNC, then its slots in order, each word most significant bit first (R161, R162). -/
def batchBits (invert : Bool) (b : Batch) : Bits :=
  (Config.sync :: b).flatMap fun w => wordToBits (lineWord invert w)

/-- `BITS_ASSEMBLE` when the bit buffer has room (R162). -/
def bitsAssemble (batches : List Batch) (preambleBits : BitVec 16) (invert : Bool) : Bits :=
  preamble preambleBits.toNat ++ batches.flatMap (batchBits invert)

/-- R162; `AllocFail` exactly when `preambleBits > PREAMBLE_MAX` (60_exceptions.md R221). -/
def execBitsAssemble (batches : List Batch) (preambleBits : BitVec 16) (invert : Bool) (s : State) :
    Host.Outcome State Fault Refusal :=
  if allocFails s.params preambleBits then .next (answer .allocFail s)
  else .next (answer (.bits (bitsAssemble batches preambleBits invert)) s)

end Sys2Proof.Machine
end

