-- ==== Sys2Proof/Machine/WaveformTransmitter.lean ====
section
/-! DEFINITION. The Waveform Transmitter (spec/43_waveform_transmitter.md): `BIT_PERIOD`, `RLE_ENCODE`, `LINE_ACTION`,
`IDLE_ACTION`, `TRANSMIT`. -/

namespace Sys2Proof.Machine

/-- `BIT_PERIOD` (R170): `1_000_000 / baud` rounded to nearest, a tie up; none where the spec refuses. -/
def bitPeriod (baud : Nat) : Option Nat :=
  if baud = 0 then none
  else if (2 * Config.tickHz + baud) / (2 * baud) = 0 then none
  else some ((2 * Config.tickHz + baud) / (2 * baud))

/-- The maximal runs of equal bits, as (level, length) (R174). -/
def runs : Bits → List (Bool × Nat)
  | [] => []
  | b :: bs =>
    match runs bs with
    | [] => [(b, 1)]
    | (c, n) :: rest => if b = c then (c, n + 1) :: rest else (b, 1) :: (c, n) :: rest

/-- A run of `d ≥ 1` ticks as sub-pulses: full-length ones first, then the remainder 1..32767 (R174, decision D14). -/
def splitRun (level : Bool) (d : Nat) : List Desc :=
  List.replicate ((d - 1) / Config.maxPulseTicks) ⟨level, Config.maxPulseTicks⟩ ++
    [⟨level, d - (d - 1) / Config.maxPulseTicks * Config.maxPulseTicks⟩]

/-- `RLE_ENCODE` for a bit period `T ≥ 1` (R174). -/
def rleEncode (bits : Bits) (period : Nat) : List Desc :=
  (runs bits).flatMap fun r => splitRun r.1 (r.2 * period)

/-- The rows of the truth table the source defines (R176). -/
def levelState (mode : OutputMode) (bit : Bool) : PinState :=
  match mode, bit with
  | .openDrain, true => .hiZ
  | .openDrain, false => .driveLow
  | .pushPull, true => .driveHigh
  | .pushPull, false => .driveLow

/-- The combination the truth table has no row for (R176, 30_encoding.md R103). -/
def lineRefused (mode : OutputMode) (drive : DrivePolarity) : Bool :=
  mode = .openDrain ∧ drive ≠ .driveOneLow

/-- The starting state of the line, that of the first pulse (R177). -/
def startLine (job : Job) (descs : List Desc) (s : State) : State :=
  match descs with
  | [] => s
  | d :: _ => setPin job.gpio (levelState job.mode d.level) s

/-- One pulse on the pin (R180, `emit`). -/
def playPulse (job : Job) (s : State) (d : Desc) : State :=
  logWave [.pulse job.gpio (levelState job.mode d.level) d.dur]
    (writePin job.gpio (levelState job.mode d.level) s)

/-- `emit(descs, k)`: the first `k` pulses were played; a rest leaves a fragment of unspecified length (R180). -/
def emit (job : Job) (descs : List Desc) (k : Nat) (s : State) : State :=
  let s' := (descs.take k).foldl (playPulse job) s
  if k < descs.length then logWave [.partialPulse job.gpio] s' else s'

/-- Step 5 of `transmit` on a configured peripheral: write, wait, and the forced idle state (R180, R181, R224: the first
failure in the order write, wait is the one raised). -/
def playConfigured (job : Job) (descs : List Desc) (hw : HwOutcome) (s : State) : State × TxResult :=
  if hw.write = .fail then
    failTransmit .writeFail job hw (emit job descs (min hw.emitted descs.length) (startLine job descs s))
  else if hw.wait = .timeout then
    failTransmit .timeout job hw (emit job descs (min hw.emitted descs.length) (startLine job descs s))
  else
    (setPin job.gpio (jobIdle job s) (emit job descs descs.length (startLine job descs s)), .ok)

/-- Steps 4 and 5 of `transmit` (R179, R180). -/
def playWaveform (job : Job) (descs : List Desc) (hw : HwOutcome) (s : State) : State × TxResult :=
  if (configure (jobCfg job) hw s).2 then playConfigured job descs hw (configure (jobCfg job) hw s).1
  else failTransmit .configFail job hw (configure (jobCfg job) hw s).1

/-- `transmit_body(job, hw)` (R180): the state after it and its result, or the spec's `refuse`. -/
def transmitBody (job : Job) (s : State) : Except Refusal (State × TxResult) :=
  if job.bits = [] then .ok (assertIdle job s, .ok)
  else if lineRefused job.mode job.drive then .error .openDrainPolarity
  else
    match bitPeriod job.baud with
    | none => .error (.noBitPeriod job.baud)
    | some T => .ok (playWaveform job (rleEncode job.bits T) (hwOf s) (afterDraw s))

/-- The bound on the wait for a job's completion, in microseconds (R184); the model counts no time. -/
def watchdogUs (job : Job) (period : Nat) : Nat := Config.txTimeoutUs job.bits.length period

/-- R170. -/
def execBitPeriod (baud : Nat) (s : State) : Host.Outcome State Fault Refusal :=
  match bitPeriod baud with
  | none => .refused (.noBitPeriod baud)
  | some T => .next (answer (.period T) s)

/-- R174; `T = 0` is outside the operand's range, and only the empty sequence has a result without it (log 10). -/
def execRleEncode (bits : Bits) (period : Nat) (s : State) : Host.Outcome State Fault Refusal :=
  if period = 0 ∧ bits ≠ [] then .refused .zeroPeriod
  else .next (answer (.descs (rleEncode bits period)) s)

/-- R176. -/
def execLineAction (mode : OutputMode) (drive : DrivePolarity) (bit : Bool) (s : State) :
    Host.Outcome State Fault Refusal :=
  if lineRefused mode drive then .refused .openDrainPolarity
  else .next (answer (.pinState (levelState mode bit)) s)

/-- R178. -/
def execIdleAction (mode : OutputMode) (idleHigh : Bool) (s : State) : Host.Outcome State Fault Refusal :=
  .next (answer (.pinState (idlePolicy s.params.idlePolicy mode idleHigh)) s)

/-- R180: rejected while `Busy`; else `Idle → Busy → Idle` around the body. -/
def execTransmit (job : Job) (s : State) : Host.Outcome State Fault Refusal :=
  if s.txState = .busy then .next (answer (.tx .busyRejected) s)
  else
    match transmitBody job (setTxState .busy s) with
    | .error r => .refused r
    | .ok r => .next (answer (.tx r.2) (returnIdle r.1))

end Sys2Proof.Machine
end

