-- ==== Sys2Proof/Machine/Scheduler.lean ====
section
/-! DEFINITION. The Transmission Scheduler (spec/44_scheduler.md): `ENQUEUE`, `ENQUEUE_TRANSMISSION`, `STATUS`, and the two
steps of the consumer. -/

namespace Sys2Proof.Machine

/-- The queue has no room (R200); the job in flight does not count. -/
def queueFull (s : State) : Bool := s.queue.length = s.params.queueDepth

/-- `ENQUEUE(job)` on the queue: the state and `Queued` or `Busy` (R200). -/
def enqueueJob (job : Job) (s : State) : State × EnqResult :=
  if queueFull s then (s, .busy) else (setQueue (s.queue ++ [job]) s, .queued)

/-- The job a page request is encoded into (R203). -/
def pageJob (r : PageRequest) : Job :=
  jobOf r (bitsAssemble (batchBuild r.capcode r.functionBits r.message).1 r.preambleBits r.invert)

/-- `truncated` of a page request (41_batch_builder.md R145). -/
def pageTruncated (r : PageRequest) : Bool := (batchBuild r.capcode r.functionBits r.message).2

/-- R200. -/
def execEnqueue (job : Job) (s : State) : Host.Outcome State Fault Refusal :=
  .next (answer (.enqueue (enqueueJob job s).2) (enqueueJob job s).1)

/-- R203: the tests in the order `Invalid`, `AllocFail`, `QueueFull` (60_exceptions.md R228). -/
def execEnqueueTransmission (r : PageRequest) (s : State) : Host.Outcome State Fault Refusal :=
  if pageInvalid s.params r then .next (answer (.page .invalid false) s)
  else if allocFails s.params r.preambleBits then .next (answer (.page .allocFail false) s)
  else
    match enqueueJob (pageJob r) s with
    | (s', .queued) => .next (answer (.page .queued (pageTruncated r)) s')
    | (s', _) => .next (answer (.page .busy false) s')

/-- R204. -/
def execStatus (s : State) : Host.Outcome State Fault Refusal := .next (answer (.status s.txState) s)

/-- `consumer.start` (R206): dequeue the head job and go `Busy`. -/
def consumerStart (job : Job) (rest : List Job) (s : State) : State :=
  setPhase (.transmitting job) (setTxState .busy (setQueue rest s))

/-- `consumer.finish` (R207): the hardware operation, back to `Idle` and `Waiting`, one notification. -/
def consumerFinish (job : Job) (s : State) : Host.Outcome State Fault Refusal :=
  match transmitBody job s with
  | .error r => .refused r
  | .ok r => .next (notify (noteOf r.2) (setPhase .waiting (returnIdle r.1)))

/-- The consumer's turn: its one enabled step, or nothing while it is blocked on the empty queue (R205). -/
def consumerTurn (s : State) : Host.Outcome State Fault Refusal :=
  match s.phase with
  | .transmitting job => consumerFinish job s
  | .waiting =>
    match s.queue with
    | [] => .next s
    | job :: rest => .next (consumerStart job rest s)

end Sys2Proof.Machine
end

