-- ==== Sys2Proof/Machine/Dispatch.lean ====
section
/-! DEFINITION. One arm per operation (spec/30_encoding.md R100). -/

namespace Sys2Proof.Machine

def exec (i : Instr) (s : State) : Host.Outcome State Fault Refusal :=
  match i with
  | .bchCheck payload => Sys2Proof.Machine.execBchCheck payload s
  | .parity32 word => Sys2Proof.Machine.execParity32 word s
  | .cwEncode payload => Sys2Proof.Machine.execCwEncode payload s
  | .cwAddress capcode function => Sys2Proof.Machine.execCwAddress capcode function s
  | .cwMessage chunk => Sys2Proof.Machine.execCwMessage chunk s
  | .textPack message => Sys2Proof.Machine.execTextPack message s
  | .batchBuild capcode function message => Sys2Proof.Machine.execBatchBuild capcode function message s
  | .bitsAssemble batches preambleBits invert => Sys2Proof.Machine.execBitsAssemble batches preambleBits invert s
  | .bitPeriod baud => Sys2Proof.Machine.execBitPeriod baud s
  | .rleEncode bits period => Sys2Proof.Machine.execRleEncode bits period s
  | .lineAction mode drive bit => Sys2Proof.Machine.execLineAction mode drive bit s
  | .idleAction mode idleHigh => Sys2Proof.Machine.execIdleAction mode idleHigh s
  | .transmit job => Sys2Proof.Machine.execTransmit job s
  | .enqueue job => Sys2Proof.Machine.execEnqueue job s
  | .enqueueTransmission request => Sys2Proof.Machine.execEnqueueTransmission request s
  | .status => Sys2Proof.Machine.execStatus s

end Sys2Proof.Machine
end

