-- ==== Sys2Proof/Machine/Fetch.lean ====
section
/-! DEFINITION. Taking a request from a port (spec/30_encoding.md R101, R102). -/

namespace Sys2Proof.Machine

/-- Which operations a port serves: the external port its two, the component port (the test harness's) every one
(R100, R102; that the latter serves the two external ones is a DESIGN CHOICE, log 4). -/
def portServes : Port → Op → Bool
  | .external, op => op.isExternal
  | .component, _ => true

/-- What a request at a port comes to. -/
inductive Fetched where
  | run (i : Instr)
  /-- Answered `Invalid` (R102). -/
  | invalid
  | incomplete
  deriving DecidableEq, Repr

/-- The header alone decides whether the port serves the request; then its record is decoded. -/
def fetchRequest (port : Port) (bytes : List Byte) : Fetched :=
  match bytes with
  | [] => .incomplete
  | h :: _ =>
    match Op.ofByte h with
    | none => .invalid
    | some op =>
      if portServes port op then
        match decode bytes with
        | .instr i _ => .run i
        | .reservedOp _ => .invalid
        | .incomplete => .incomplete
      else .invalid

/-- The port at which the operation of a header byte is issued (R100). -/
def homePort (h : Byte) : Port :=
  match Op.ofByte h with
  | some op => if op.isExternal then .external else .component
  | none => .component

/-- The request with the given table word, at its own port. -/
def tableRequest (nbits w : Nat) : Input :=
  .request (homePort (BitVec.ofNat 8 w)) (tableBytes nbits w)

end Sys2Proof.Machine
end

