-- ==== Sys2Proof/Machine/Step.lean ====
section
/-! DEFINITION. One step of one agent (spec/20_memory.md R63): the next of what the outside brings, else the consumer. -/

namespace Sys2Proof.Machine

/-- One atomic step. A request is taken from its port and run (30_encoding.md R101, R102); a turn of the consumer is its
start or finish step (44_scheduler.md R205 to R207); with nothing brought from outside, the consumer is the only agent left
(log 5). -/
def step (s : State) : Host.Outcome State Fault Refusal :=
  match s.inputs with
  | [] => consumerTurn s
  | .consumer :: rest => consumerTurn (setInputs rest s)
  | .reset :: rest => .next (reinitCore (setInputs rest s))
  | .request port bytes :: rest =>
    match fetchRequest port bytes with
    | .run i => exec i (setInputs rest s)
    | .invalid => .next (answer .invalid (setInputs rest s))
    | .incomplete => .refused .incompleteRequest

/-- The state with the table word's request as the next of what the outside brings (log 13). -/
def State.withFetchWord (s : State) (nbits w : Nat) : State :=
  setInputs (tableRequest nbits w :: s.inputs) s

end Sys2Proof.Machine
end

