-- ==== Sys2Proof/Safety.lean ====
section
/-! DEFINITION. What the claims speak of: the invariant of the machine (spec/10_state.md R34), quiescence (44_scheduler.md
R210), and the independent descriptions the results are compared with. -/

namespace Sys2Proof.Machine

/-! ### Independent descriptions of results -/

/-- The number of 1 bits of a word (00_scope.md R8). -/
def popcount {w : Nat} (v : BitVec w) : Nat := (List.range w).countP fun i => v.getLsbD i

/-- `q(x) · GEN(x)` over GF(2) for the low `n` coefficients of `q` (40_codeword_encoder.md R121, R127). -/
def genMultiple (q : BitVec 21) : Nat → BitVec 31
  | 0 => 0#31
  | n + 1 => (if q.getLsbD n then Config.gen <<< n else 0#31) ^^^ genMultiple q n

/-- A polynomial of degree at most 30 is divisible by `GEN` (R126 (e)). -/
def divisibleByGen (v : BitVec 31) : Prop := ∃ q : BitVec 21, v = genMultiple q 21

/-- The waveform of a descriptor list, one level per tick (43_waveform_transmitter.md R175 (c)). -/
def ticks (ds : List Desc) : Bits := ds.flatMap fun d => List.replicate d.dur d.level

/-- The pin a reconfiguration to `cfg` hands back (R179). -/
def handedBack (s : State) (cfg : Cfg) : List Gpio :=
  match s.lastCfg with
  | none => []
  | some old => if old.pin = cfg.pin then [] else [old.pin]

/-- What a pin reads as after the hand-back and a last write of `last` to `p` (R179, R181). -/
def pinAfter (s : State) (cfg : Cfg) (last : PinState) (q : Nat) : PinState :=
  if q = cfg.pin.toNat then last
  else if (handedBack s cfg).any (fun g => g.toNat == q) then .hiZ
  else pinRead s.pin q

/-- The log entries of a hand-back (R179). -/
def handBackItems (s : State) (cfg : Cfg) : List WaveItem := (handedBack s cfg).map fun g => .set g .hiZ

/-- The log entries of pulses played in full (R180, `emit`). -/
def pulseItems (job : Job) (ds : List Desc) : List WaveItem :=
  ds.map fun d => .pulse job.gpio (levelState job.mode d.level) d.dur

/-- The spec refuses no part of this job (R170, R176, R180): it is empty, or its line and its bit period are defined. -/
def playable (job : Job) : Prop :=
  job.bits = [] ∨ ((job.mode = .openDrain → job.drive = .driveOneLow) ∧ 1 ≤ job.baud ∧ job.baud ≤ 2000000)

/-- The operands of a page request that 30_encoding.md R96, R103 and 60_exceptions.md R223 call illegal. -/
def outsideLegalValues (p : Params) (r : PageRequest) : Prop :=
  r.capcode = 0#32 ∨ 3 < r.functionBits.toNat ∨
  (r.baud.toNat ≠ 512 ∧ r.baud.toNat ≠ 1200 ∧ r.baud.toNat ≠ 2400) ∨ p.msgCap < r.message.length

/-! ### Safe states -/

/-- `S.phase = Transmitting(...)` counts one job (44_scheduler.md R208). -/
def inFlight : Phase → Nat
  | .waiting => 0
  | .transmitting _ => 1

/-- The answer put a job into the queue. -/
def isQueued : Answer → Bool
  | .enqueue .queued => true
  | .page .queued _ => true
  | _ => false

/-- The `Queued` results so far (R208). -/
def queuedCount (l : List Answer) : Nat := l.countP isQueued

/-- R208: every `Queued` result is waiting, in flight or notified. -/
def Accounted (s : State) : Prop := queuedCount s.answers = s.notes.length + s.queue.length + inFlight s.phase

/-- What one entry of the log leaves the pin at. -/
def replayItem (p : Nat) (st : PinState) : WaveItem → PinState
  | .pulse q v _ => if q.toNat = p then v else st
  | .set q v => if q.toNat = p then v else st
  | .partialPulse _ => st

/-- The state of a pin by the log alone (10_state.md R27). -/
def replay (wave : List WaveItem) (p : Nat) : PinState := wave.foldl (replayItem p) .hiZ

/-- No agent of the core has an enabled step (44_scheduler.md R210). -/
def Quiescent (s : State) : Prop := s.phase = .waiting ∧ s.queue = []

/-- The invariant of every reachable state (10_state.md R34), with what it rests on. -/
structure CoreInv (s : State) : Prop where
  /-- 00_scope.md R4 -/
  params : s.params.wf = true
  /-- R34 (i) -/
  queue : s.queue.length ≤ s.params.queueDepth
  /-- R34 (ii) -/
  busy : s.txState = .busy ↔ s.phase ≠ .waiting
  /-- The pin map is in its canonical form (log 12). -/
  canonical : PinMap.wf s.pin = true
  /-- R34 (iv), 70_reset_and_hazards.md R261: every pin is `HiZ` or in a state of the idle policy. -/
  pinsIdle : ∀ e ∈ s.pin, ∃ mode idleHigh, e.2 = idlePolicy s.params.idlePolicy mode idleHigh
  /-- Only pins that exist are ever driven (10_state.md R25). -/
  pinsExist : ∀ e ∈ s.pin, s.params.gpioPins.contains e.1 = true
  /-- The peripheral is configured for pins that exist only (R24). -/
  cfgExists : ∀ c, s.lastCfg = some c → s.params.gpioPins.contains c.pin.toNat = true
  /-- R208 -/
  accounted : Accounted s
  /-- The log accounts for every pin (R27). -/
  logged : ∀ p, pinRead s.pin p = replay s.wave p

end Sys2Proof.Machine
end

