-- ==== Sys2Proof/Certificates/Slice0/Obligations.lean ====
section
/-! DEFINITION. The statements for the provers. `spec/<file> R<n>` names the rule; a clause that rests on a decision the spec
marks as its own, or on a choice of this model, is named as such. -/

open Sys2Proof Sys2Proof.Machine

/-! ### Reset, invariant, step -/

/-- 10_state.md section 11 (R40; the empty queue, log, notes, `last_cfg` and the `HiZ` pins are the spec's decisions D20 and
D28): the reset values. That the first step from them leaves them as they are is the model's choice (log 5: no inputs after
reset, the step is then the consumer's, and a blocked turn does nothing). -/
def Obligations.ResetStateIsAsTabulated : Prop :=
  State.reset.txState = .idle ∧ State.reset.phase = .waiting ∧ State.reset.queue = [] ∧ State.reset.lastCfg = none ∧
  (∀ p, pinRead State.reset.pin p = .hiZ) ∧ State.reset.notes = [] ∧ State.reset.wave = [] ∧
  step State.reset = .next State.reset

/-- 10_state.md section 10 (R34): the invariant holds after reset. -/
def Obligations.ResetMeetsInvariant : Prop := CoreInv State.reset

/-- 10_state.md section 10 (R34), 44_scheduler.md (R208), 70_reset_and_hazards.md (R261): every step of every agent keeps the
invariant, whatever the outside brings and whatever the oracle answers. -/
def Obligations.EveryStepKeepsInvariant : Prop :=
  ∀ s s' : State, CoreInv s → step s = .next s' → CoreInv s'

/-- 20_memory.md section 6, 30_encoding.md section 7: a request that is next at a port serving its operation, and whose bytes
decode to `i`, is taken from the inputs and run as `exec i`. The model's choices in it: the inputs as a field (log 5), that bits
after the record are ignored (log 3), and that the component port serves the two external operations too (log 4). -/
def Obligations.StepRunsTheDecodedRequest : Prop :=
  ∀ (s : State) (port : Port) (bytes : List Byte) (rest : List Input) (i : Instr) (left : Bits),
    s.inputs = .request port bytes :: rest → decode bytes = .instr i left → portServes port i.op = true →
    step s = exec i { s with inputs := rest }

/-- 20_memory.md section 6 (R63, the order of the agents), as data by the model's choice (log 5): a turn of the consumer that is
next in the inputs, and every step with nothing left in them, is the consumer's turn. -/
def Obligations.StepGivesTheConsumerItsTurn : Prop :=
  ∀ s : State, (s.inputs = [] → step s = consumerTurn s) ∧
    ∀ rest, s.inputs = .consumer :: rest → step s = consumerTurn { s with inputs := rest }

/-- 70_reset_and_hazards.md section 1 (R250, decision D28): initialisation gives the reset state at any time and discards
queued jobs and a job in flight without a notification. That the parameters stay is R251 (e); that the pending inputs and
oracle values stay is the model's choice (log 11). -/
def Obligations.InitialisationDiscardsJobs : Prop :=
  ∀ (s : State) (rest : List Input), s.inputs = .reset :: rest →
    step s = .next { txState := .idle, phase := .waiting, queue := [], lastCfg := none, pin := [], notes := [], wave := [],
                     params := s.params, inputs := rest, answers := [], hwAnswers := s.hwAnswers, hwDraws := s.hwDraws }

/-! ### Requests as bytes -/

/-- 30_encoding.md sections 6 and 7 (the header bytes of R100, operands of R96 and R100 in order and width; the packing below
the field is the model's choice, logs 1 and 2): a few requests written out bit by bit. The last is the request of
95_test_vectors.md program P1. -/
def Obligations.SampleRequestBytesDecode : Prop :=
  decode [0x11#8] = .instr .status [] ∧
  decode [0x03#8, 0xC8#8, 0x00#8, 0x00#8] = .instr (.cwEncode 0x190000#21) [false, false, false] ∧
  decode [0x02#8, 0x56#8, 0xD8#8, 0xB5#8, 0x2E#8] = .instr (.parity32 0x56D8B52E#32) [] ∧
  decode [0x04#8, 0x00#8, 0x15#8, 0xB6#8, 0x2A#8, 0x02#8] = .instr (.cwAddress 1422890#32 2#8) [] ∧
  decode [0x0B#8, 0xA0#8] = .instr (.lineAction .openDrain .driveOneLow true) [false, false, false, false, false] ∧
  decode [0x10#8, 0x00#8, 0x15#8, 0xB6#8, 0x2A#8, 0x02#8, 0x00#8, 0x01#8, 0x48#8, 0x04#8, 0xB0#8, 0x40#8, 0x80#8, 0x48#8, 0x00#8] =
    .instr (.enqueueTransmission
      { capcode := 0x0015B62A#32, functionBits := 2#8, message := [0x48#8], baud := 0x04B0#16, invert := false,
        idleHigh := true, mode := .pushPull, gpio := 4#8, preambleBits := 0x0240#16 }) [false, false, false, false, false]

/-- 30_encoding.md section 7 (R101): every request the format can carry is read back from its bytes with every operand, and
what is left over is less than a byte of padding. The layout below the field is the model's choice (logs 1 and 2). -/
def Obligations.DecodeOfEncodeIsTheRequest : Prop :=
  ∀ i : Instr, i.wellFormed = true →
    ∃ n, n < 8 ∧ decode (encode i) = .instr i (List.replicate n false)

/-- 30_encoding.md section 8 (R102, decision D9): a reserved `op` at any port, and a component `op` at the external port, is
answered `Invalid` and changes no state of the core, whatever bytes follow the header (that the header alone decides is the
model's choice, log 3; the inputs are its own field, log 5). -/
def Obligations.ReservedAndMisplacedOpsAnswerInvalid : Prop :=
  ∀ (s : State) (port : Port) (h : Byte) (record : List Byte) (rest : List Input),
    s.inputs = .request port (h :: record) :: rest →
    (h = 0x00#8 ∨ h = 0x0F#8 ∨ 0x12#8 ≤ h ∨ (port = .external ∧ 0x01#8 ≤ h ∧ h ≤ 0x0E#8)) →
    step s = .next { s with inputs := rest, answers := s.answers ++ [.invalid] }

/-- The model's choice (log 3; 30_encoding.md section 7 says the length of a request follows from its `op` and its length
fields): a request whose bytes end before its record is refused by name. -/
def Obligations.IncompleteRequestIsRefused : Prop :=
  ∀ (s : State) (port : Port) (i : Instr) (k : Nat) (rest : List Input),
    i.wellFormed = true → portServes port i.op = true → k < (encode i).length →
    s.inputs = .request port ((encode i).take k) :: rest → step s = .refused .incompleteRequest

/-! ### The Codeword Encoder -/

/-- 40_codeword_encoder.md, the "Equivalent statement" and bit widths of R121 (marked derived there): `BCH_CHECK` answers the
remainder of `payload(x)·x^10` divided by `GEN(x)` over GF(2), and it is the only ten-bit value that is one. -/
def Obligations.BchCheckAnswersTheRemainder : Prop :=
  ∀ (payload : Payload) (s : State), ∃ c : CheckBits,
    exec (.bchCheck payload) s = .next { s with answers := s.answers ++ [.check c] } ∧
    divisibleByGen ((payload.setWidth 31 <<< 10) ^^^ c.setWidth 31) ∧
    ∀ c' : CheckBits, divisibleByGen ((payload.setWidth 31 <<< 10) ^^^ c'.setWidth 31) → c' = c

/-- 40_codeword_encoder.md, corner cases of R121 (marked derived there): `BCH_CHECK` is linear over GF(2). -/
def Obligations.BchCheckIsLinear : Prop :=
  ∀ (a b : Payload) (s : State), ∃ ca cb : CheckBits,
    exec (.bchCheck a) s = .next { s with answers := s.answers ++ [.check ca] } ∧
    exec (.bchCheck b) s = .next { s with answers := s.answers ++ [.check cb] } ∧
    exec (.bchCheck (a ^^^ b)) s = .next { s with answers := s.answers ++ [.check (ca ^^^ cb)] }

/-- 40_codeword_encoder.md R122: `PARITY32` answers the XOR of all 32 bits, which is `popcount(w) mod 2`; op 0x02; it is the
parity field of a codeword; with bit 0 clear it is the parity of bits 31:1; the corner cases and the example. -/
def Obligations.ParityIsTheXorOfAllBits : Prop :=
  (∀ (w : BitVec 32) (s : State), ∃ b : Bool,
    exec (.parity32 w) s = .next { s with answers := s.answers ++ [.parity b] } ∧
    b = (List.range 32).foldl (fun acc i => acc ^^ w.getLsbD i) false ∧
    b = decide (popcount w % 2 = 1) ∧
    (w.getLsbD 0 = false → b = decide (popcount (w.extractLsb' 1 31) % 2 = 1))) ∧
  (∀ (p : Payload) (s : State) (w : Codeword),
    exec (.cwEncode p) s = .next { s with answers := s.answers ++ [.codeword w] } →
    exec (.parity32 (w &&& 0xFFFFFFFE#32)) s = .next { s with answers := s.answers ++ [.parity (w.getLsbD 0)] }) ∧
  Op.ofByte 0x02#8 = some .parity32 ∧
  parity32 0#32 = false ∧ parity32 0xFFFFFFFF#32 = false ∧ parity32 0xFFFFFFFE#32 = true ∧ parity32 0x56D8B52E#32 = true

/-- 40_codeword_encoder.md section on R126 (clauses (e) and (f) are marked derived there): the laws (a) to (f) of every
result of `CW_ENCODE`. -/
def Obligations.CodewordStructuralInvariant : Prop :=
  ∀ (p : Payload) (s : State), ∃ w : Codeword,
    exec (.cwEncode p) s = .next { s with answers := s.answers ++ [.codeword w] } ∧
    w.extractLsb' 11 21 = p ∧
    exec (.bchCheck (w.extractLsb' 11 21)) s = .next { s with answers := s.answers ++ [.check (w.extractLsb' 1 10)] } ∧
    popcount w % 2 = 0 ∧
    exec (.cwEncode (w.extractLsb' 11 21)) s = .next { s with answers := s.answers ++ [.codeword w] } ∧
    divisibleByGen (w.extractLsb' 1 31) ∧
    ∀ p' : Payload, exec (.cwEncode p') s = .next { s with answers := s.answers ++ [.codeword w] } → p' = p

/-- 30_encoding.md section 2 (R86, the fields are marked derived there): SYNC and IDLE are fixed points of `CW_ENCODE`, and
(40_codeword_encoder.md, corner cases of R125) no message codeword equals either. -/
def Obligations.SentinelsAreCodewordsButNoMessages : Prop :=
  (∀ s : State, exec (.cwEncode 0x0F9A42#21) s = .next { s with answers := s.answers ++ [.codeword 0x7CD215D8#32] } ∧
    exec (.cwEncode 0x0F5138#21) s = .next { s with answers := s.answers ++ [.codeword 0x7A89C197#32] }) ∧
  ∀ (c : Chunk) (s : State) (w : Codeword),
    exec (.cwMessage c) s = .next { s with answers := s.answers ++ [.codeword w] } →
    w ≠ 0x7CD215D8#32 ∧ w ≠ 0x7A89C197#32

/-- 30_encoding.md R83 and R84: `CW_ADDRESS` answers the word with type bit 0, `(capcode >> 3) & 0x3FFFF` in bits 30:13,
`function & 0x3` in bits 12:11, and the check and parity of that payload; higher capcode and function bits and the frame do
not reach it. -/
def Obligations.AddressCodewordFields : Prop :=
  ∀ (capcode : BitVec 32) (function : BitVec 8) (s : State), ∃ w : Codeword,
    exec (.cwAddress capcode function) s = .next { s with answers := s.answers ++ [.codeword w] } ∧
    w.getLsbD 31 = false ∧
    w.extractLsb' 13 18 = ((capcode >>> 3) &&& 0x3FFFF#32).setWidth 18 ∧
    w.extractLsb' 11 2 = (function &&& 0x3#8).setWidth 2 ∧
    (w.extractLsb' 11 21).toNat =
      ((capcode.toNat >>> 3 &&& 0x3FFFF) <<< 2) ||| (function.toNat &&& 0x3) ∧
    exec (.cwEncode (w.extractLsb' 11 21)) s = .next { s with answers := s.answers ++ [.codeword w] }

/-- 30_encoding.md section 2 (R85, its fields and payload assembly): `CW_MESSAGE` answers the word with type bit 1, the chunk in
bits 30:11, and the check and parity of the payload `0x100000 | chunk`. Which message bits a chunk holds is said by
`TextPackPlacesEveryBit` and `BatchBuildPlacement`. -/
def Obligations.MessageCodewordFields : Prop :=
  ∀ (chunk : Chunk) (s : State), ∃ w : Codeword,
    exec (.cwMessage chunk) s = .next { s with answers := s.answers ++ [.codeword w] } ∧
    w.getLsbD 31 = true ∧
    w.extractLsb' 11 20 = chunk ∧
    w.extractLsb' 11 21 = 0x100000#21 ||| chunk.setWidth 21 ∧
    exec (.cwEncode (w.extractLsb' 11 21)) s = .next { s with answers := s.answers ++ [.codeword w] }

/-- 70_reset_and_hazards.md section 3 (R259, marked derived there), 30_encoding.md section 2 (R84: both masks, no frame),
40_codeword_encoder.md (R124, R126 (a) and (f)): two capcode and function pairs give the same address codeword exactly when
they agree on the 18 address bits and the two function bits. -/
def Obligations.CapcodesAliasExactlyByAddressAndFunction : Prop :=
  ∀ (c c' : BitVec 32) (f f' : BitVec 8) (s : State),
    exec (.cwAddress c f) s = exec (.cwAddress c' f') s ↔
      c.extractLsb' 3 18 = c'.extractLsb' 3 18 ∧ f.extractLsb' 0 2 = f'.extractLsb' 0 2

/-! ### The Batch Builder -/

/-- 41_batch_builder.md (R141, R142 with decision D5, R143), 20_memory.md section 2 (R53; R54 marked derived there): the
number of chunks, and which message bit every chunk bit is. -/
def Obligations.TextPackPlacesEveryBit : Prop :=
  ∀ (message : List Byte) (s : State), ∃ ch : List Chunk,
    exec (.textPack message) s = .next { s with answers := s.answers ++ [.chunks ch] } ∧
    ch.length = max 1 ((7 * message.length + 19) / 20) ∧
    ∀ (j i : Nat) (hj : j < ch.length), i < 20 →
      (ch[j]).getLsbD (19 - i) =
        (if 20 * j + i < 7 * message.length then
          ((message[(20 * j + i) / 7]?).getD 0#8).getLsbD (6 - (20 * j + i) % 7)
        else false)

/-- 41_batch_builder.md (R145 and, marked derived there, R147; R146 with decisions D6 and D7), 20_memory.md section 4:
`BATCH_BUILD` answers between 1 and 10 batches of sixteen slots, the fewest that hold the words, with the address codeword at
slot `2·frame` of batch 0, IDLE before it, the message codewords consecutively after it, IDLE after them, and `truncated` when
not all of them fit. -/
def Obligations.BatchBuildPlacement : Prop :=
  ∀ (capcode : BitVec 32) (function : BitVec 8) (message : List Byte) (s : State),
    ∃ (aw : Codeword) (ch : List Chunk) (bs : List Batch) (truncated : Bool),
      exec (.cwAddress capcode function) s = .next { s with answers := s.answers ++ [.codeword aw] } ∧
      exec (.textPack message) s = .next { s with answers := s.answers ++ [.chunks ch] } ∧
      exec (.batchBuild capcode function message) s = .next { s with answers := s.answers ++ [.batches bs truncated] } ∧
      (∀ b ∈ bs, b.length = 16) ∧
      bs.length = min 10 ((2 * (capcode.toNat % 8) + 1 + ch.length + 15) / 16) ∧
      truncated = decide (160 < 2 * (capcode.toNat % 8) + 1 + ch.length) ∧
      ∀ k, k < 16 * bs.length →
        bs.flatten[k]? = some
          (if k < 2 * (capcode.toNat % 8) then Config.idle
          else if k = 2 * (capcode.toNat % 8) then aw
          else if h : k - (2 * (capcode.toNat % 8) + 1) < ch.length then
            cwMessage (ch[k - (2 * (capcode.toNat % 8) + 1)])
          else Config.idle)

/-! ### The Bitstream Assembler -/

/-- 42_bitstream_assembler.md R160: the preamble alternates from 1 and has the length of its operand (`BITS_ASSEMBLE` of no
batch is the preamble alone). -/
def Obligations.PreambleAlternatesFromOne : Prop :=
  ∀ (n : BitVec 16) (invert : Bool) (s : State), n.toNat ≤ s.params.preambleMax → ∃ bits : Bits,
    exec (.bitsAssemble [] n invert) s = .next { s with answers := s.answers ++ [.bits bits] } ∧
    bits.length = n.toNat ∧ (∀ k, k < n.toNat → bits[k]? = some (decide (k % 2 = 0))) ∧
    (n = 0#16 → bits = []) ∧ (n = 5#16 → bits = [true, false, true, false, true]) ∧
    (n.toNat % 2 = 1 → bits.getLast? = some true)

/-- 42_bitstream_assembler.md R161: the bits of a word from bit 31 to bit 0, and its example. -/
def Obligations.WordBitsAreMsbFirst : Prop :=
  (∀ w : Codeword, (wordToBits w).length = 32 ∧ ∀ k, k < 32 → (wordToBits w)[k]? = some (w.getLsbD (31 - k))) ∧
  wordToBits 0x7CD215D8#32 =
    [false, true, true, true, true, true, false, false, true, true, false, true, false, false, true, false] ++
    [false, false, false, true, false, true, false, true, true, true, false, true, true, false, false, false]

/-- 42_bitstream_assembler.md (R162; the condition of `AllocFail` is decision D11), 20_memory.md section 4 (the stream index of
R56, marked derived there): where every bit of the stream comes from, and when the allocation fails instead. -/
def Obligations.BitsAssembleStreamIndex : Prop :=
  ∀ (batches : List Batch) (n : BitVec 16) (invert : Bool) (s : State),
    (s.params.preambleMax < n.toNat →
      exec (.bitsAssemble batches n invert) s = .next { s with answers := s.answers ++ [.allocFail] }) ∧
    (n.toNat ≤ s.params.preambleMax → (∀ b ∈ batches, b.length = 16) → ∃ bits : Bits,
      exec (.bitsAssemble batches n invert) s = .next { s with answers := s.answers ++ [.bits bits] } ∧
      bits.length = n.toNat + 544 * batches.length ∧
      (∀ k, k < n.toNat → bits[k]? = some (decide (k % 2 = 0))) ∧
      ∀ (b : Nat) (hb : b < batches.length) (i : Nat), i < 32 →
        bits[n.toNat + 544 * b + (31 - i)]? = some (invert ^^ Config.sync.getLsbD i) ∧
        ∀ (slot : Nat) (hs : slot < (batches[b]).length),
          bits[n.toNat + 544 * b + 32 * (slot + 1) + (31 - i)]? = some (invert ^^ ((batches[b])[slot]).getLsbD i))

/-- 42_bitstream_assembler.md R163: with `invert` every word bit is the complement and no preamble bit changes. -/
def Obligations.InversionComplementsTheWordsOnly : Prop :=
  ∀ (batches : List Batch) (n : BitVec 16) (s : State), n.toNat ≤ s.params.preambleMax → ∃ plain inv : Bits,
    exec (.bitsAssemble batches n false) s = .next { s with answers := s.answers ++ [.bits plain] } ∧
    exec (.bitsAssemble batches n true) s = .next { s with answers := s.answers ++ [.bits inv] } ∧
    inv.length = plain.length ∧ n.toNat ≤ plain.length ∧
    (∀ k, k < n.toNat → inv[k]? = plain[k]?) ∧
    ∀ k, n.toNat ≤ k → inv[k]? = (plain[k]?).map (!·)

/-! ### The Waveform Transmitter: the pure operations -/

/-- 43_waveform_transmitter.md section 1 (R170, the tie rule and the refusals are decision D13): `BIT_PERIOD` answers the
nearest whole number of microseconds, a tie rounded up, for bauds 1 to 2 000 000, and is refused outside them. -/
def Obligations.BitPeriodRoundsToNearest : Prop :=
  ∀ (baud : Nat) (s : State),
    (1 ≤ baud → baud ≤ 2000000 → ∃ T : Nat,
      exec (.bitPeriod baud) s = .next { s with answers := s.answers ++ [.period T] } ∧
      1 ≤ T ∧ 2 * baud * T ≤ 2000000 + baud ∧ 2000000 + baud < 2 * baud * (T + 1)) ∧
    (baud = 0 ∨ 2000000 < baud → exec (.bitPeriod baud) s = .refused (.noBitPeriod baud))

/-- 43_waveform_transmitter.md section 2 (R174 with decision D14; R175 marked derived there): the descriptors have legal
durations, expand to exactly the waveform in which every bit takes `T` ticks, and are the greedy ones (two neighbours of one
level only inside a split run, the first of them of full length). For `T = 0` see log 10. -/
def Obligations.RleEncodeExpandsToTheWaveform : Prop :=
  ∀ (bits : Bits) (T : Nat) (s : State), 1 ≤ T → ∃ ds : List Desc,
    exec (.rleEncode bits T) s = .next { s with answers := s.answers ++ [.descs ds] } ∧
    (∀ d ∈ ds, 1 ≤ d.dur ∧ d.dur ≤ 32767) ∧
    ticks ds = bits.flatMap (fun b => List.replicate T b) ∧
    (ds.map (·.dur)).sum = bits.length * T ∧
    ∀ (i : Nat) (h : i + 1 < ds.length), (ds[i]).level = (ds[i + 1]).level → (ds[i]).dur = 32767

/-- The model's choice (log 10), for the operand value 43_waveform_transmitter.md section 2 leaves out (`T ≥ 1`) and
93_implementation_defined.md I16 allows to refuse: with `T = 0` the empty sequence gives the empty list, any other is
refused. -/
def Obligations.RleEncodeOfPeriodZero : Prop :=
  ∀ (bits : Bits) (s : State),
    (bits = [] → exec (.rleEncode bits 0) s = .next { s with answers := s.answers ++ [.descs []] }) ∧
    (bits ≠ [] → exec (.rleEncode bits 0) s = .refused .zeroPeriod)

/-- 43_waveform_transmitter.md section 3 (R176; the refusal is decision D17): the truth table, for every drive polarity. -/
def Obligations.LineActionTruthTable : Prop :=
  ∀ (drive : DrivePolarity) (s : State),
    exec (.lineAction .openDrain .driveOneLow true) s = .next { s with answers := s.answers ++ [.pinState .hiZ] } ∧
    exec (.lineAction .openDrain .driveOneLow false) s = .next { s with answers := s.answers ++ [.pinState .driveLow] } ∧
    exec (.lineAction .pushPull drive true) s = .next { s with answers := s.answers ++ [.pinState .driveHigh] } ∧
    exec (.lineAction .pushPull drive false) s = .next { s with answers := s.answers ++ [.pinState .driveLow] } ∧
    ∀ (n : Nat) (bit : Bool), exec (.lineAction .openDrain (.other n) bit) s = .refused .openDrainPolarity

/-- 43_waveform_transmitter.md section 3 (R178; the table and that it is a parameter are decision D19): `IDLE_ACTION` answers
the policy's entry, and the documented default table. -/
def Obligations.IdleActionFollowsThePolicy : Prop :=
  ∀ s : State,
    exec (.idleAction .openDrain true) s = .next { s with answers := s.answers ++ [.pinState s.params.idlePolicy.openDrainHigh] } ∧
    exec (.idleAction .openDrain false) s = .next { s with answers := s.answers ++ [.pinState s.params.idlePolicy.openDrainLow] } ∧
    exec (.idleAction .pushPull true) s = .next { s with answers := s.answers ++ [.pinState s.params.idlePolicy.pushPullHigh] } ∧
    exec (.idleAction .pushPull false) s = .next { s with answers := s.answers ++ [.pinState s.params.idlePolicy.pushPullLow] } ∧
    Params.standard.idlePolicy = ⟨.hiZ, .hiZ, .hiZ, .driveHigh⟩

/-! ### TRANSMIT -/

/-- 43_waveform_transmitter.md section 3 (R177, the start state is decision D21) and section 4 (R179 with decisions D22, D32,
and R180): a non-empty job whose line and period are
defined, on a peripheral that is configured or gets configured, written and finished in time, is played whole: start state,
every pulse, forced idle. All fields after it; those of the oracle (one value drawn) are the model's choice (log 7). The
descriptors are those `RLE_ENCODE` answers for the rounded period. -/
def Obligations.TransmitPlaysTheWholeWaveform : Prop :=
  ∀ (s : State) (job : Job), s.txState = .idle → job.bits ≠ [] →
    (job.mode = .openDrain → job.drive = .driveOneLow) → 1 ≤ job.baud → job.baud ≤ 2000000 →
    (s.lastCfg = some ⟨job.gpio, job.mode, job.idleHigh⟩ ∨
      (s.params.gpioPins.contains job.gpio.toNat = true ∧ (hwOf s).cfg = .ok)) →
    (hwOf s).write = .ok → (hwOf s).wait = .done →
    ∃ (t : State) (d : Desc) (ds : List Desc),
      exec (.rleEncode job.bits ((2000000 + job.baud) / (2 * job.baud))) s =
        .next { s with answers := s.answers ++ [.descs (d :: ds)] } ∧
      exec (.transmit job) s = .next t ∧
      t.txState = .idle ∧ t.phase = s.phase ∧ t.queue = s.queue ∧ t.notes = s.notes ∧ t.params = s.params ∧
      t.inputs = s.inputs ∧ t.answers = s.answers ++ [.tx .ok] ∧
      t.hwAnswers = s.hwAnswers.tail ∧ t.hwDraws = (if s.hwAnswers = [] then s.hwDraws + 1 else s.hwDraws) ∧
      t.lastCfg = some ⟨job.gpio, job.mode, job.idleHigh⟩ ∧
      (∀ q, pinRead t.pin q = pinAfter s ⟨job.gpio, job.mode, job.idleHigh⟩
        (idlePolicy s.params.idlePolicy job.mode job.idleHigh) q) ∧
      t.wave = s.wave ++ handBackItems s ⟨job.gpio, job.mode, job.idleHigh⟩ ++
        [.set job.gpio (levelState job.mode d.level)] ++ pulseItems job (d :: ds) ++
        [.set job.gpio (idlePolicy s.params.idlePolicy job.mode job.idleHigh)]

/-- 43_waveform_transmitter.md section 4 (R179, R182 with decisions D22, D25, D32), 60_exceptions.md section 3 (R228): a job
for which the peripheral must be configured, on a pin that does not exist or with a failing configuration, ends in
`Fail(ConfigFail)`: no pulse, one re-initialisation attempt, the existing pin forced idle. All fields after it; those of the
oracle (one value drawn, however much of it is read) are the model's choice (log 7). -/
def Obligations.TransmitConfigurationFailure : Prop :=
  ∀ (s : State) (job : Job), s.txState = .idle → job.bits ≠ [] →
    (job.mode = .openDrain → job.drive = .driveOneLow) → 1 ≤ job.baud → job.baud ≤ 2000000 →
    s.lastCfg ≠ some ⟨job.gpio, job.mode, job.idleHigh⟩ →
    (s.params.gpioPins.contains job.gpio.toNat = false ∨ (hwOf s).cfg = .fail) →
    ∃ t : State, exec (.transmit job) s = .next t ∧
      t.txState = .idle ∧ t.phase = s.phase ∧ t.queue = s.queue ∧ t.notes = s.notes ∧ t.params = s.params ∧
      t.inputs = s.inputs ∧ t.answers = s.answers ++ [.tx (.fail .configFail)] ∧
      t.hwAnswers = s.hwAnswers.tail ∧ t.hwDraws = (if s.hwAnswers = [] then s.hwDraws + 1 else s.hwDraws) ∧
      (s.params.gpioPins.contains job.gpio.toNat = true →
        t.lastCfg = (if (hwOf s).reinit = .ok then some ⟨job.gpio, job.mode, job.idleHigh⟩ else none) ∧
        (∀ q, pinRead t.pin q = pinAfter s ⟨job.gpio, job.mode, job.idleHigh⟩
          (idlePolicy s.params.idlePolicy job.mode job.idleHigh) q) ∧
        t.wave = s.wave ++ handBackItems s ⟨job.gpio, job.mode, job.idleHigh⟩ ++
          [.set job.gpio (idlePolicy s.params.idlePolicy job.mode job.idleHigh)]) ∧
      (s.params.gpioPins.contains job.gpio.toNat = false →
        t.lastCfg = none ∧
        (∀ q, pinRead t.pin q = pinAfter s ⟨job.gpio, job.mode, job.idleHigh⟩ (pinRead s.pin job.gpio.toNat) q) ∧
        t.wave = s.wave ++ handBackItems s ⟨job.gpio, job.mode, job.idleHigh⟩)

/-- 43_waveform_transmitter.md section 3 (R177, the start state is decision D21) and section 4 (R180, R182 with decisions D24,
D25), 60_exceptions.md section 3 (R224, R228): on a
configured peripheral a write failure, else a time-out, ends in `Fail` of that cause after `min(emitted, number of pulses)`
pulses and, if any is left, one fragment; then one re-initialisation attempt and the forced idle state. All fields; those of the oracle (one value drawn) are the model's
choice (log 7). A configuration for a pin that does not exist is left out: `CoreInv.cfgExists` says that no run has one. -/
def Obligations.TransmitWriteFailureOrTimeout : Prop :=
  ∀ (s : State) (job : Job) (cause : HwCause), s.txState = .idle → job.bits ≠ [] →
    (job.mode = .openDrain → job.drive = .driveOneLow) → 1 ≤ job.baud → job.baud ≤ 2000000 →
    s.params.gpioPins.contains job.gpio.toNat = true →
    (s.lastCfg = some ⟨job.gpio, job.mode, job.idleHigh⟩ ∨ (hwOf s).cfg = .ok) →
    ((cause = .writeFail ∧ (hwOf s).write = .fail) ∨
      (cause = .timeout ∧ (hwOf s).write = .ok ∧ (hwOf s).wait = .timeout)) →
    ∃ (t : State) (d : Desc) (ds : List Desc),
      exec (.rleEncode job.bits ((2000000 + job.baud) / (2 * job.baud))) s =
        .next { s with answers := s.answers ++ [.descs (d :: ds)] } ∧
      exec (.transmit job) s = .next t ∧
      t.txState = .idle ∧ t.phase = s.phase ∧ t.queue = s.queue ∧ t.notes = s.notes ∧ t.params = s.params ∧
      t.inputs = s.inputs ∧ t.answers = s.answers ++ [.tx (.fail cause)] ∧
      t.hwAnswers = s.hwAnswers.tail ∧ t.hwDraws = (if s.hwAnswers = [] then s.hwDraws + 1 else s.hwDraws) ∧
      t.lastCfg = (if (hwOf s).reinit = .ok then some ⟨job.gpio, job.mode, job.idleHigh⟩ else none) ∧
      (∀ q, pinRead t.pin q = pinAfter s ⟨job.gpio, job.mode, job.idleHigh⟩
        (idlePolicy s.params.idlePolicy job.mode job.idleHigh) q) ∧
      t.wave = s.wave ++ handBackItems s ⟨job.gpio, job.mode, job.idleHigh⟩ ++
        [.set job.gpio (levelState job.mode d.level)] ++
        pulseItems job ((d :: ds).take (min (hwOf s).emitted (ds.length + 1))) ++
        (if (hwOf s).emitted < ds.length + 1 then [.partialPulse job.gpio] else []) ++
        [.set job.gpio (idlePolicy s.params.idlePolicy job.mode job.idleHigh)]

/-- 43_waveform_transmitter.md section 4 (R180 corner cases (i), (ii); decision D23): an empty job while `Idle` is `Ok`, forces
the pin idle if it exists, and touches neither the peripheral nor the oracle (that no value is drawn: log 7). -/
def Obligations.EmptyTransmitReassertsIdle : Prop :=
  ∀ (s : State) (job : Job), s.txState = .idle → job.bits = [] → ∃ t : State,
    exec (.transmit job) s = .next t ∧
    (s.params.gpioPins.contains job.gpio.toNat = false → t = { s with answers := s.answers ++ [.tx .ok] }) ∧
    (s.params.gpioPins.contains job.gpio.toNat = true →
      t = { s with
            pin := t.pin
            answers := s.answers ++ [.tx .ok]
            wave := s.wave ++ [.set job.gpio (idlePolicy s.params.idlePolicy job.mode job.idleHigh)] } ∧
      ∀ q, pinRead t.pin q = if q = job.gpio.toNat then idlePolicy s.params.idlePolicy job.mode job.idleHigh
        else pinRead s.pin q)

/-- 60_exceptions.md R225: while `Busy` every `transmit`, empty or not, is `BusyRejected` and changes nothing else: nothing is
queued. Beside it, a turn of the consumer appends no answer (that its job is never `BusyRejected` is part of
`ConsumerFinishTransmitsAndNotifies`). -/
def Obligations.TransmitWhileBusyIsRejected : Prop :=
  (∀ (s : State) (job : Job), s.txState = .busy →
    exec (.transmit job) s = .next { s with answers := s.answers ++ [.tx .busyRejected] }) ∧
  ∀ s t : State, consumerTurn s = .next t → t.answers = s.answers

/-- 43_waveform_transmitter.md sections 1, 3 and 4 (R170, R176, R180, "refuse"; decisions D13, D17), 44_scheduler.md (R207
corner cases): a non-empty job the spec gives no meaning is refused by name, by `TRANSMIT` and by the finish step alike (a step with no inputs
is the consumer's: log 5). -/
def Obligations.UndefinedJobsAreRefused : Prop :=
  ∀ (s : State) (job : Job), job.bits ≠ [] →
    (job.mode = .openDrain → job.drive ≠ .driveOneLow →
      (s.txState = .idle → exec (.transmit job) s = .refused .openDrainPolarity) ∧
      (s.phase = .transmitting job → s.inputs = [] → step s = .refused .openDrainPolarity)) ∧
    ((job.mode = .openDrain → job.drive = .driveOneLow) → (job.baud = 0 ∨ 2000000 < job.baud) →
      (s.txState = .idle → exec (.transmit job) s = .refused (.noBitPeriod job.baud)) ∧
      (s.phase = .transmitting job → s.inputs = [] → step s = .refused (.noBitPeriod job.baud)))

/-- 43_waveform_transmitter.md R181: every way out of the body, of `TRANSMIT` and of the consumer's finish step, success or
failure, writes the idle state as its last write to a pin that exists, whatever the oracle says. -/
def Obligations.EveryTransmitForcesIdle : Prop :=
  ∀ (s t : State) (job : Job), s.params.gpioPins.contains job.gpio.toNat = true →
    ((s.txState = .idle ∧ exec (.transmit job) s = .next t) ∨
      (s.phase = .transmitting job ∧ consumerTurn s = .next t)) →
    pinRead t.pin job.gpio.toNat = idlePolicy s.params.idlePolicy job.mode job.idleHigh ∧
    t.wave.getLast? = some (.set job.gpio (idlePolicy s.params.idlePolicy job.mode job.idleHigh))

/-- 10_state.md section 9 (R33 (a), marked derived there), 43_waveform_transmitter.md section 4 (R179): when the peripheral
already has the job's configuration, the oracle's answer to a configuration is not read (the answers as a list: log 7). -/
def Obligations.MatchingConfigurationIsNotRedone : Prop :=
  ∀ (s : State) (job : Job) (hw : HwOutcome) (rest : List HwOutcome) (reply : HwReply),
    s.txState = .idle → s.hwAnswers = hw :: rest → s.lastCfg = some ⟨job.gpio, job.mode, job.idleHigh⟩ →
    job.bits ≠ [] →
    exec (.transmit job) { s with hwAnswers := { hw with cfg := reply } :: rest } = exec (.transmit job) s

/-- 43_waveform_transmitter.md section 4 (R184, decision D26): the bound on the wait exceeds the duration of the whole
waveform, whatever the free margin (log 9). -/
def Obligations.WatchdogExceedsTheWaveform : Prop :=
  ∀ (job : Job) (T : Nat) (s : State) (ds : List Desc), 1 ≤ T →
    exec (.rleEncode job.bits T) s = .next { s with answers := s.answers ++ [.descs ds] } →
    (ds.map (·.dur)).sum < watchdogUs job T

/-! ### The Scheduler and the external operations -/

/-- 44_scheduler.md R200: `ENQUEUE` puts the job as given at the tail and answers `Queued`, or answers `Busy` and changes
nothing when the queue is full; neither the transmitter's state nor the job in flight matters; op 0x0E. -/
def Obligations.EnqueueAppendsOrAnswersBusy : Prop :=
  (∀ (s : State) (job : Job),
    (s.queue.length = s.params.queueDepth →
      exec (.enqueue job) s = .next { s with answers := s.answers ++ [.enqueue .busy] }) ∧
    (s.queue.length ≠ s.params.queueDepth →
      exec (.enqueue job) s = .next { s with queue := s.queue ++ [job], answers := s.answers ++ [.enqueue .queued] })) ∧
  Op.ofByte 0x0E#8 = some .enqueue ∧
  ∀ (s : State) (j1 j2 j3 : Job), s.params.queueDepth = 2 → s.queue = [j1, j2] →
    exec (.enqueue j3) s = .next { s with answers := s.answers ++ [.enqueue .busy] }

/-- 44_scheduler.md (R203, decisions D9 and D10), 60_exceptions.md section 3 (R228), 30_encoding.md section 9 (R106, marked
derived there): `ENQUEUE_TRANSMISSION` validates, then allocates, then enqueues; a queued job holds the bits that `BATCH_BUILD`
and `BITS_ASSEMBLE` answer for the same operands, and the operands as given. -/
def Obligations.EnqueueTransmissionResults : Prop :=
  ∀ (s : State) (r : PageRequest),
    (outsideLegalValues s.params r →
      exec (.enqueueTransmission r) s = .next { s with answers := s.answers ++ [.page .invalid false] }) ∧
    (¬ outsideLegalValues s.params r → s.params.preambleMax < r.preambleBits.toNat →
      exec (.enqueueTransmission r) s = .next { s with answers := s.answers ++ [.page .allocFail false] }) ∧
    (¬ outsideLegalValues s.params r → r.preambleBits.toNat ≤ s.params.preambleMax →
      s.queue.length = s.params.queueDepth →
      exec (.enqueueTransmission r) s = .next { s with answers := s.answers ++ [.page .busy false] }) ∧
    (¬ outsideLegalValues s.params r → r.preambleBits.toNat ≤ s.params.preambleMax →
      s.queue.length ≠ s.params.queueDepth →
      ∃ (bs : List Batch) (truncated : Bool) (bits : Bits),
        exec (.batchBuild r.capcode r.functionBits r.message) s =
          .next { s with answers := s.answers ++ [.batches bs truncated] } ∧
        exec (.bitsAssemble bs r.preambleBits r.invert) s = .next { s with answers := s.answers ++ [.bits bits] } ∧
        exec (.enqueueTransmission r) s = .next { s with
          queue := s.queue ++ [⟨bits, r.baud.toNat, r.gpio, r.mode, r.idleHigh, .driveOneLow⟩]
          answers := s.answers ++ [.page .queued truncated] })

/-- 44_scheduler.md (R203, R207 corner cases; `DRIVE_POLARITY` is decision D17), 42_bitstream_assembler.md (R162): every job
that `ENQUEUE_TRANSMISSION` queues has at least 544 bits, at most `PREAMBLE_MAX + 5440`, and the finish step refuses none of
it. -/
def Obligations.QueuedPagesArePlayable : Prop :=
  ∀ (s t : State) (r : PageRequest) (job : Job), exec (.enqueueTransmission r) s = .next t → t.queue = s.queue ++ [job] →
    544 ≤ job.bits.length ∧ job.bits.length ≤ s.params.preambleMax + 5440 ∧ playable job

/-- 44_scheduler.md (R204, decision D31): `STATUS` answers the transmitter state and changes nothing else; between the start
and the finish step it answers `Busy` (the order of the agents as a list of inputs: log 5). -/
def Obligations.StatusReportsTheTransmitterState : Prop :=
  (∀ s : State, exec .status s = .next { s with answers := s.answers ++ [.status s.txState] }) ∧
  ∀ (s : State) (job : Job) (later : List Job) (rest : List Input),
    s.phase = .waiting → s.queue = job :: later → s.inputs = .consumer :: .request .external [0x11#8] :: rest →
    ∃ t u : State, step s = .next t ∧ step t = .next u ∧ u.answers = s.answers ++ [.status .busy]

/-- 44_scheduler.md (R205): with the empty queue the waiting consumer has no step, so that its turn does nothing (the
model's choice, log 5); a successful `ENQUEUE` enables its start. -/
def Obligations.ConsumerBlocksOnTheEmptyQueue : Prop :=
  (∀ s : State, s.phase = .waiting → s.queue = [] → consumerTurn s = .next s) ∧
  ∀ (s : State) (job : Job), s.phase = .waiting → s.queue = [] → s.queue.length ≠ s.params.queueDepth →
    ∃ t u : State, exec (.enqueue job) s = .next t ∧ consumerTurn t = .next u ∧ u.phase = .transmitting job

/-- 44_scheduler.md R206: the start step dequeues the oldest job, goes `Busy` and `Transmitting`, and changes nothing else; it
frees a place in a full queue at once; with a job in flight the consumer's turn starts none; the example. -/
def Obligations.ConsumerStartDequeuesTheHead : Prop :=
  (∀ (s : State) (job : Job) (later : List Job), s.phase = .waiting → s.queue = job :: later → ∃ t : State,
    consumerTurn s = .next t ∧ t = { s with queue := later, txState := .busy, phase := .transmitting job } ∧
    ∀ new : Job, s.queue.length = s.params.queueDepth →
      exec (.enqueue new) t = .next { t with queue := later ++ [new], answers := t.answers ++ [.enqueue .queued] }) ∧
  (∀ (s t : State) (job : Job), s.phase = .transmitting job → consumerTurn s = .next t →
    t.phase = .waiting ∧ t.queue = s.queue) ∧
  ∀ (s : State) (j1 j2 : Job), s.phase = .waiting → s.queue = [j1, j2] →
    consumerTurn s = .next { s with queue := [j2], txState := .busy, phase := .transmitting j1 }

/-- 44_scheduler.md (R207, decision D29), 43_waveform_transmitter.md section 4 (R180: the finish step runs the body of
`TRANSMIT`): for a playable job the finish step completes, with exactly the hardware effects that `TRANSMIT` of the same job
has on an idle transmitter, goes back to `Idle` and `Waiting`, and notes `TX_DONE` for `Ok` and `TX_FAIL` for every failure; its result is never `BusyRejected`
(a step with no inputs is the consumer's: log 5). -/
def Obligations.ConsumerFinishTransmitsAndNotifies : Prop :=
  ∀ (s : State) (job : Job), s.phase = .transmitting job → s.inputs = [] → playable job →
    ∃ (t : State) (r : TxResult),
      exec (.transmit job) { s with txState := .idle } = .next t ∧ t.answers = s.answers ++ [.tx r] ∧ r ≠ .busyRejected ∧
      step s = .next { t with
        phase := .waiting
        answers := s.answers
        notes := s.notes ++ [if r = .ok then .txDone else .txFail] }

/-! ### Whole-machine rules -/

/-- 20_memory.md section 5 (R59), 10_state.md section 1 (R20): the twelve component operations before `TRANSMIT` change nothing
but the stream of answers (the model's own field, log 6), and what they answer depends on the operands and the parameters
alone. -/
def Obligations.PureOperationsOnlyAnswer : Prop :=
  ∀ (i : Instr) (s t : State), i.op ∉ [Op.transmit, .enqueue, .enqueueTransmission, .status] → exec i s = .next t →
    ∃ a : Answer, t = { s with answers := s.answers ++ [a] } ∧
      ∀ s' : State, s'.params = s.params → exec i s' = .next { s' with answers := s'.answers ++ [a] }

/-- 60_exceptions.md section 5 (R240), 70_reset_and_hazards.md (R255): a request at the external port, whatever its bytes,
touches nothing of what the consumer owns, and of the queue only the tail (inputs and answers are the model's own fields, logs 5
and 6). -/
def Obligations.ProducersTouchOnlyTheTailOfTheQueue : Prop :=
  ∀ (s t : State) (bytes : List Byte) (rest : List Input), s.inputs = .request .external bytes :: rest → step s = .next t →
    (∃ (tail : List Job) (a : Answer), tail.length ≤ 1 ∧
      t = { s with inputs := rest, queue := s.queue ++ tail, answers := s.answers ++ [a] })

/-- 10_state.md section 3 (R22), 20_memory.md (R64, R65): no step changes or reorders a waiting job; a step leaves the queue,
appends at its tail, removes its head into `phase`, or (initialisation, R250) empties it. -/
def Obligations.QueueIsFirstInFirstOut : Prop :=
  ∀ s t : State, step s = .next t →
    t.queue = s.queue ∨ (∃ job, t.queue = s.queue ++ [job]) ∨
    (∃ job, s.queue = job :: t.queue ∧ s.phase = .waiting ∧ t.phase = .transmitting job) ∨
    (∃ rest, s.inputs = .reset :: rest ∧ t.queue = [])

/-- 10_state.md section 5 (R26, R27; decisions D24, D30), 44_scheduler.md (R207): but for initialisation the notifications and
the log only grow, and a notification is appended exactly when a job leaves `phase`. That the parameters never change is
70_reset_and_hazards.md section 2 (R251 (e)); that the answers only grow is the model's choice (log 6). -/
def Obligations.StreamsOnlyGrow : Prop :=
  ∀ s t : State, step s = .next t → (∀ rest, s.inputs ≠ .reset :: rest) →
    s.notes <+: t.notes ∧ s.wave <+: t.wave ∧ s.answers <+: t.answers ∧ t.params = s.params ∧
    t.notes.length = s.notes.length + (if s.phase ≠ .waiting ∧ t.phase = .waiting then 1 else 0)

/-- 44_scheduler.md (R208, marked derived there): every `Queued` result is waiting, in flight or notified, after every step of
every state of which this holds. -/
def Obligations.EveryQueuedJobIsAccountedFor : Prop :=
  ∀ s t : State, Accounted s → step s = .next t → Accounted t

/-- 70_reset_and_hazards.md section 3 (R261), 43_waveform_transmitter.md section 4 (R181): with an idle policy that never pulls
low (the default of decision D19 among them), no pin is left pulled low by any step. -/
def Obligations.NoPinIsLeftPulledLow : Prop :=
  ∀ s t : State,
    (∀ mode idleHigh, idlePolicy s.params.idlePolicy mode idleHigh ≠ .driveLow) →
    (∀ c, s.lastCfg = some c → s.params.gpioPins.contains c.pin.toNat = true) →
    (∀ p, pinRead s.pin p ≠ .driveLow) → step s = .next t →
    (∀ mode idleHigh, idlePolicy t.params.idlePolicy mode idleHigh ≠ .driveLow) ∧
    (∀ c, t.lastCfg = some c → t.params.gpioPins.contains c.pin.toNat = true) ∧
    (∀ p, pinRead t.pin p ≠ .driveLow)

/-- 20_memory.md section 7 (R66), 44_scheduler.md (R208, R210; decision D29): with nothing more from outside, a core whose jobs
are playable reaches a quiescent state in two steps per waiting job and one for a job in flight, every one of them notified,
whatever the oracle answers. That with no inputs every step is the consumer's is the model's choice (log 5); it stands for the
fairness that R66 asks of the consumer. -/
def Obligations.QueueDrainsToQuiescence : Prop :=
  ∀ s : State, s.inputs = [] → (∀ job ∈ s.queue, playable job) → (∀ job, s.phase = .transmitting job → playable job) →
    ∃ t : State, Host.Core.run core (2 * s.queue.length + inFlight s.phase) s = .next t ∧ Quiescent t ∧
      t.notes.length = s.notes.length + s.queue.length + inFlight s.phase ∧ t.answers = s.answers
end

