-- ==== Sys2Proof/Laws/Bits.lean ====
section
/-! SUPPORT. Bit strings: numbers and words to bits and back, groups, bytes. -/

namespace Sys2Proof

@[simp] theorem natToBits_length (k n : Nat) : (natToBits k n).length = k := by
  induction k with
  | zero => rfl
  | succ k ih => simp [natToBits, ih]

@[simp] theorem wordToBits_length {w : Nat} (v : BitVec w) : (wordToBits v).length = w := by simp [wordToBits]

@[simp] theorem groups_length (w k : Nat) (l : Bits) : (groups w k l).length = k := by
  induction k generalizing l with
  | zero => rfl
  | succ k ih => simp [groups, ih]

/-- Element `i` of the bits of a number is its bit `k − 1 − i` (00_scope.md R8). -/
theorem natToBits_getElem {k n i : Nat} (h : i < (natToBits k n).length) :
    (natToBits k n)[i] = n.testBit (k - 1 - i) := by
  induction k generalizing i with
  | zero => simp [natToBits] at h
  | succ k ih =>
    cases i with
    | zero => simp [natToBits]
    | succ i =>
      simp only [natToBits, List.getElem_cons_succ]
      rw [ih]
      congr 1
      omega

theorem bitsToNat_lt (l : Bits) : bitsToNat l < 2 ^ l.length := by
  induction l with
  | nil => simp [bitsToNat]
  | cons b l ih =>
    have : b.toNat ≤ 1 := Bool.toNat_le b
    simp only [bitsToNat, List.length_cons, pow_succ]
    nlinarith [Nat.two_pow_pos l.length]

theorem bitsToNat_natToBits (k n : Nat) : bitsToNat (natToBits k n) = n % 2 ^ k := by
  induction k with
  | zero => simp [natToBits, bitsToNat, Nat.mod_one]
  | succ k ih =>
    rw [natToBits, bitsToNat, ih, natToBits_length, Nat.mod_pow_succ, Nat.testBit_eq_decide_div_mod_eq]
    rcases Nat.mod_two_eq_zero_or_one (n / 2 ^ k) with h | h
    · simp [h]
    · simp [h]; omega

/-- Reading back the bits of a word gives the word. -/
@[simp] theorem bitsToWord_wordToBits {w : Nat} (v : BitVec w) : bitsToWord w (wordToBits v) = v := by
  apply BitVec.eq_of_toNat_eq
  simp [bitsToWord, wordToBits, bitsToNat_natToBits, Nat.mod_eq_of_lt v.isLt]

/-- Bit `j` of the number read from a bit string. -/
theorem testBit_bitsToNat (l : Bits) (j : Nat) :
    (bitsToNat l).testBit j = if h : j < l.length then l[l.length - 1 - j] else false := by
  induction l generalizing j with
  | nil => simp [bitsToNat]
  | cons b l ih =>
    rw [bitsToNat, Nat.mul_comm, Nat.testBit_two_pow_mul_add _ (bitsToNat_lt l)]
    by_cases hj : j < l.length
    · have h1 : j < (b :: l).length := by simp; omega
      have h2 : (b :: l).length - 1 - j = (l.length - 1 - j) + 1 := by simp; omega
      simp only [hj, if_true, h1, dif_pos, h2, List.getElem_cons_succ, ih]
    · by_cases h1 : j = l.length
      · subst h1
        cases b <;> simp
      · have h2 : ¬ j < (b :: l).length := by simp; omega
        simp only [hj, if_false, h2, dif_neg, not_false_eq_true]
        have : j - l.length ≠ 0 := by omega
        obtain ⟨m, hm⟩ := Nat.exists_eq_succ_of_ne_zero this
        cases b <;> simp [hm, Nat.testBit_succ]

/-- Bit `w − 1 − i` of the word read from `w` bits is bit `i` of the list. -/
theorem getLsbD_bitsToWord {w : Nat} {l : Bits} (hl : l.length = w) (i : Nat) (hi : i < w) :
    (bitsToWord w l).getLsbD (w - 1 - i) = l[i] := by
  subst hl
  have h1 : l.length - 1 - i < l.length := by omega
  have h2 : l.length - 1 - (l.length - 1 - i) = i := by omega
  rw [bitsToWord, BitVec.getLsbD_ofNat, testBit_bitsToNat, dif_pos h1, decide_eq_true h1, Bool.true_and]
  simp only [h2]

/-- Element `i` of the bits of a word is its bit `w − 1 − i`. -/
theorem wordToBits_getElem {w : Nat} (v : BitVec w) {i : Nat} (h : i < (wordToBits v).length) :
    (wordToBits v)[i] = v.getLsbD (w - 1 - i) :=
  natToBits_getElem (k := w) (n := v.toNat) (by simpa using h)

/-- The bits of the word read from `w` bits are those bits. -/
theorem wordToBits_bitsToWord {w : Nat} {l : Bits} (hl : l.length = w) : wordToBits (bitsToWord w l) = l := by
  apply List.ext_getElem
  · simp [hl]
  · intro i h1 h2
    have hi : i < w := by simpa using h1
    rw [wordToBits_getElem]
    exact getLsbD_bitsToWord hl i hi

/-- Group `j` is the word of bits `w·j` to `w·j + w − 1`. -/
theorem groups_getElem {w k : Nat} {l : Bits} {j : Nat} (h : j < (groups w k l).length) :
    (groups w k l)[j] = bitsToWord w ((l.drop (w * j)).take w) := by
  induction k generalizing l j with
  | zero => simp [groups] at h
  | succ k ih =>
    cases j with
    | zero => simp [groups]
    | succ j =>
      simp only [groups, List.getElem_cons_succ]
      rw [ih, List.drop_drop]
      congr 3
      ring

/-- Cutting into groups loses nothing. -/
theorem flatMap_groups {w k : Nat} {l : Bits} (h : w * k ≤ l.length) :
    (groups w k l).flatMap wordToBits = l.take (w * k) := by
  induction k generalizing l with
  | zero => simp [groups]
  | succ k ih =>
    have hw : w ≤ l.length := by nlinarith
    have hk : w * k ≤ (l.drop w).length := by rw [List.length_drop]; rw [Nat.mul_succ] at h; omega
    rw [groups, List.flatMap_cons, ih hk, wordToBits_bitsToWord (by simp [hw])]
    rw [← List.take_append_drop w (l.take (w * (k + 1)))]
    congr 1
    · rw [List.take_take]
      congr 1
      rw [Nat.mul_succ]; omega
    · rw [List.drop_take]
      congr 1
      rw [Nat.mul_succ]; omega

/-- A bit string written as bytes reads back as itself and less than a byte of 0 bits. -/
theorem bytesToBits_bitsToBytes (l : Bits) :
    ∃ n, n < 8 ∧ bytesToBits (bitsToBytes l) = l ++ List.replicate n false := by
  refine ⟨8 * ((l.length + 7) / 8) - l.length, by omega, ?_⟩
  have hle : 8 * ((l.length + 7) / 8) ≤ (l ++ List.replicate 7 false).length := by simp; omega
  rw [bytesToBits, bitsToBytes, flatMap_groups hle, List.take_append]
  congr 1
  · apply List.take_of_length_le; omega
  · rw [List.take_replicate]; congr 1; omega

end Sys2Proof
end

