-- ==== Sys2Proof/Laws/Decode.lean ====
section
/-! SUPPORT. Each field reader takes back what the encoder wrote, whatever follows it. -/

namespace Sys2Proof

theorem takeBits_append (l r : Bits) : takeBits l.length (l ++ r) = some (l, r) := by
  induction l with
  | nil => rfl
  | cons b l ih => simp [takeBits, ih]

@[simp] theorem takeFlag_cons (b : Bool) (r : Bits) : takeFlag (b :: r) = some (b, r) := rfl

@[simp] theorem takeWord_append {w : Nat} (v : BitVec w) (r : Bits) :
    takeWord w (wordToBits v ++ r) = some (v, r) := by
  have h := takeBits_append (wordToBits v) r
  rw [wordToBits_length] at h
  simp [takeWord, h]

theorem takeWords_append {w : Nat} (l : List (BitVec w)) (r : Bits) :
    takeWords w l.length (l.flatMap wordToBits ++ r) = some (l, r) := by
  induction l with
  | nil => rfl
  | cons v l ih => simp [takeWords, List.append_assoc, ih]

/-- A length that fits its field is read back. -/
theorem toNat_ofNat_of_fits {w n : Nat} (h : n < 2 ^ w) : (BitVec.ofNat w n).toNat = n := by
  rw [BitVec.toNat_ofNat, Nat.mod_eq_of_lt h]

/-- A natural operand is the number of its digits. -/
theorem bitsToNat_natToBits_natWidth (n : Nat) : bitsToNat (natToBits (natWidth n) n) = n := by
  rw [bitsToNat_natToBits]
  apply Nat.mod_eq_of_lt
  unfold natWidth
  split
  · subst n; simp
  · exact Nat.lt_log2_self

theorem takeNat_append {n : Nat} (h : natFits n = true) (r : Bits) : takeNat (natField n ++ r) = some (n, r) := by
  have hw : natWidth n < 2 ^ 8 := by simpa [natFits] using h
  have hb := takeBits_append (natToBits (natWidth n) n) r
  rw [natToBits_length] at hb
  simp [takeNat, natField, List.append_assoc, -BitVec.toNat_ofNat, toNat_ofNat_of_fits hw, hb, bitsToNat_natToBits_natWidth]

theorem takeMessage_append {m : List Byte} (h : messageFits m = true) (r : Bits) :
    takeMessage (messageField m ++ r) = some (m, r) := by
  have hl : m.length < 2 ^ 16 := by simpa [messageFits] using h
  simp [takeMessage, messageField, List.append_assoc, -BitVec.toNat_ofNat, toNat_ofNat_of_fits hl, takeWords_append]

theorem takeBitSeq_append {b : Bits} (h : bitsFit b = true) (r : Bits) :
    takeBitSeq (bitSeqField b ++ r) = some (b, r) := by
  have hl : b.length < 2 ^ 32 := by simpa [bitsFit] using h
  simp [takeBitSeq, bitSeqField, List.append_assoc, -BitVec.toNat_ofNat, toNat_ofNat_of_fits hl, takeBits_append]

theorem takeBatchList_append {l : List Batch} (h : ∀ b ∈ l, b.length = Config.batchSlots) (r : Bits) :
    takeBatchList l.length (l.flatMap (·.flatMap wordToBits) ++ r) = some (l, r) := by
  induction l with
  | nil => rfl
  | cons b l ih =>
    have hb := takeWords_append b (l.flatMap (·.flatMap wordToBits) ++ r)
    rw [h b (by simp)] at hb
    simp [takeBatchList, List.append_assoc, hb, ih fun c hc => h c (by simp [hc])]

theorem takeBatches_append {l : List Batch} (h : batchesFit l = true) (r : Bits) :
    takeBatches (batchesField l ++ r) = some (l, r) := by
  simp only [batchesFit, Bool.and_eq_true, decide_eq_true_eq, List.all_eq_true, beq_iff_eq] at h
  simp [takeBatches, batchesField, List.append_assoc, -BitVec.toNat_ofNat, toNat_ofNat_of_fits h.1, takeBatchList_append h.2]

@[simp] theorem OutputMode.ofCode_code (m : OutputMode) : OutputMode.ofCode m.code = m := by cases m <;> rfl

theorem DrivePolarity.ofCode_code {d : DrivePolarity} (h : driveFits d = true) : DrivePolarity.ofCode d.code = d := by
  cases d with
  | driveOneLow => rfl
  | other n =>
    have : n = 1 := by simpa [driveFits] using h
    subst this; rfl

theorem takeJob_append {j : Job} (h : j.fits = true) (r : Bits) : takeJob (jobField j ++ r) = some (j, r) := by
  simp only [Job.fits, Bool.and_eq_true] at h
  obtain ⟨⟨hb, hn⟩, hd⟩ := h
  simp [takeJob, jobField, List.append_assoc, takeBitSeq_append hb, takeNat_append hn, DrivePolarity.ofCode_code hd]

theorem takePage_append {p : PageRequest} (h : messageFits p.message = true) (r : Bits) :
    takePage (pageField p ++ r) = some (p, r) := by
  simp [takePage, pageField, List.append_assoc, takeMessage_append h]

/-- The header byte of an operation is read as that operation. -/
@[simp] theorem Op.ofByte_code (op : Op) : Op.ofByte op.code = some op := by cases op <;> decide

/-- No two rows of the operation map share a header. -/
theorem opTable_pairwise : opTable.Pairwise fun a b => a.1 ≠ b.1 := by decide

/-- A decoded record is of the operation it was read for. -/
theorem decodeRecord_op {op : Op} {l : Bits} {r : Instr × Bits} (h : decodeRecord op l = some r) : r.1.op = op := by
  cases op <;> simp only [decodeRecord, Option.bind_eq_bind, Option.bind_eq_some_iff, Option.some.injEq] at h
  case status => rw [← h]; rfl
  case bitsAssemble => obtain ⟨_, _, _, _, _, _, rfl⟩ := h; rfl
  case lineAction => obtain ⟨_, _, _, _, _, _, rfl⟩ := h; rfl
  case batchBuild => obtain ⟨_, _, _, _, _, _, rfl⟩ := h; rfl
  case cwAddress => obtain ⟨_, _, _, _, rfl⟩ := h; rfl
  case rleEncode => obtain ⟨_, _, _, _, rfl⟩ := h; rfl
  case idleAction => obtain ⟨_, _, _, _, rfl⟩ := h; rfl
  all_goals obtain ⟨_, _, rfl⟩ := h; rfl

/-- A request that decodes starts with its operation's header. -/
theorem decode_instr {bytes : List Byte} {i : Instr} {rest : Bits} (h : decode bytes = .instr i rest) :
    ∃ hd tl, bytes = hd :: tl ∧ Op.ofByte hd = some i.op := by
  unfold decode at h
  split at h
  · cases h
  · rename_i hd tl
    split at h
    · cases h
    · rename_i op ho
      split at h
      · cases h
      · rename_i j r hr
        cases h
        refine ⟨hd, tl, rfl, ?_⟩
        rw [ho, ← decodeRecord_op hr]

/-! ### What follows a field never changes how it is read -/

/-- A reader that answers on some bits answers the same on more, leaving those over. -/
def Extends {α : Type} (f : Bits → Option (α × Bits)) : Prop :=
  ∀ l a r x, f l = some (a, r) → f (l ++ x) = some (a, r ++ x)

theorem Extends.pure {α : Type} (a : α) : Extends fun l => some (a, l) := by
  intro l b r x h; cases h; rfl

theorem Extends.bind {α β : Type} {f : Bits → Option (α × Bits)} {g : α → Bits → Option (β × Bits)}
    (hf : Extends f) (hg : ∀ a, Extends (g a)) : Extends fun l => (f l).bind fun r => g r.1 r.2 := by
  intro l b r x h
  rw [Option.bind_eq_some_iff] at h
  obtain ⟨⟨a, m⟩, h1, h2⟩ := h
  simp only [hf l a m x h1, Option.bind_some]
  exact hg a m b r x h2

theorem Extends.takeFlag : Extends takeFlag := by
  intro l b r x h
  cases l with
  | nil => cases h
  | cons c l => cases h; rfl

theorem Extends.takeBits (n : Nat) : Extends (takeBits n) := by
  induction n with
  | zero => exact Extends.pure []
  | succ n ih =>
    intro l b r x h
    cases l with
    | nil => cases h
    | cons c l =>
      simp only [Sys2Proof.takeBits, Option.map_eq_some_iff] at h
      obtain ⟨⟨d, m⟩, h1, h2⟩ := h
      cases h2
      simp [Sys2Proof.takeBits, ih l d _ x h1]

theorem Extends.takeWord (w : Nat) : Extends (takeWord w) := by
  intro l b r x h
  simp only [Sys2Proof.takeWord, Option.map_eq_some_iff] at h
  obtain ⟨⟨d, m⟩, h1, h2⟩ := h
  cases h2
  simp [Sys2Proof.takeWord, Extends.takeBits w l d _ x h1]

theorem Extends.takeWords (w n : Nat) : Extends (takeWords w n) := by
  induction n with
  | zero => exact Extends.pure []
  | succ n ih => exact (Extends.takeWord w).bind fun _ => ih.bind fun _ => Extends.pure _

theorem Extends.takeNat : Extends takeNat :=
  (Extends.takeWord 8).bind fun n => (Extends.takeBits n.toNat).bind fun b => Extends.pure (bitsToNat b)

theorem Extends.takeMessage : Extends takeMessage :=
  (Extends.takeWord 16).bind fun n => Extends.takeWords 8 n.toNat

theorem Extends.takeBitSeq : Extends takeBitSeq :=
  (Extends.takeWord 32).bind fun n => Extends.takeBits n.toNat

theorem Extends.takeBatchList (n : Nat) : Extends (takeBatchList n) := by
  induction n with
  | zero => exact Extends.pure []
  | succ n ih => exact (Extends.takeWords 32 _).bind fun _ => ih.bind fun _ => Extends.pure _

theorem Extends.takeBatches : Extends takeBatches :=
  (Extends.takeWord 16).bind fun n => Extends.takeBatchList n.toNat

theorem Extends.takeJob : Extends takeJob :=
  Extends.takeBitSeq.bind fun b => Extends.takeNat.bind fun n => (Extends.takeWord 8).bind fun g =>
    Extends.takeFlag.bind fun m => Extends.takeFlag.bind fun h => Extends.takeFlag.bind fun d =>
    Extends.pure (Job.mk b n g (.ofCode m) h (.ofCode d))

theorem Extends.takePage : Extends takePage :=
  (Extends.takeWord 32).bind fun c => (Extends.takeWord 8).bind fun f => Extends.takeMessage.bind fun t =>
    (Extends.takeWord 16).bind fun b => Extends.takeFlag.bind fun i => Extends.takeFlag.bind fun h =>
    Extends.takeFlag.bind fun m => (Extends.takeWord 8).bind fun g => (Extends.takeWord 16).bind fun p =>
    Extends.pure (PageRequest.mk c f t b i h (.ofCode m) g p)

/-- The length of a request follows from its header and its length fields (30_encoding.md R101): bits after the record do
not change how it is read. -/
theorem decodeRecord_extends (op : Op) : Extends (decodeRecord op) := by
  cases op with
  | bchCheck => exact (Extends.takeWord 21).bind fun _ => Extends.pure _
  | parity32 => exact (Extends.takeWord 32).bind fun _ => Extends.pure _
  | cwEncode => exact (Extends.takeWord 21).bind fun _ => Extends.pure _
  | cwAddress => exact (Extends.takeWord 32).bind fun _ => (Extends.takeWord 8).bind fun _ => Extends.pure _
  | cwMessage => exact (Extends.takeWord 20).bind fun _ => Extends.pure _
  | textPack => exact Extends.takeMessage.bind fun _ => Extends.pure _
  | batchBuild =>
    exact (Extends.takeWord 32).bind fun _ => (Extends.takeWord 8).bind fun _ => Extends.takeMessage.bind fun _ =>
      Extends.pure _
  | bitsAssemble =>
    exact Extends.takeBatches.bind fun _ => (Extends.takeWord 16).bind fun _ => Extends.takeFlag.bind fun _ =>
      Extends.pure _
  | bitPeriod => exact Extends.takeNat.bind fun _ => Extends.pure _
  | rleEncode => exact Extends.takeBitSeq.bind fun _ => Extends.takeNat.bind fun _ => Extends.pure _
  | lineAction =>
    exact Extends.takeFlag.bind fun m => Extends.takeFlag.bind fun d => Extends.takeFlag.bind fun b =>
      Extends.pure (Instr.lineAction (.ofCode m) (.ofCode d) b)
  | idleAction =>
    exact Extends.takeFlag.bind fun m => Extends.takeFlag.bind fun h => Extends.pure (Instr.idleAction (.ofCode m) h)
  | transmit => exact Extends.takeJob.bind fun _ => Extends.pure _
  | enqueue => exact Extends.takeJob.bind fun _ => Extends.pure _
  | enqueueTransmission => exact Extends.takePage.bind fun _ => Extends.pure _
  | status => exact Extends.pure _

end Sys2Proof
end

