-- ==== Sys2Proof/Laws/PerInstr.lean ====
section
/-! SUPPORT. The family RoundTrip of LAWS.json: the operand record of a well-formed request is read back exactly, whatever
bits follow it. -/

namespace Sys2Proof.Laws

/-- The record of `i` is read back as `i`, and nothing of what follows is taken. -/
def RoundTrip.Statement (i : Instr) : Prop :=
  i.wellFormed = true → ∀ rest : Bits, decodeRecord i.op (i.record ++ rest) = some (i, rest)

namespace RoundTrip

theorem bchCheck (p : Payload) : Statement (.bchCheck p) := fun _ r => by
  simp [decodeRecord, Instr.op, Instr.record]
theorem parity32 (w : BitVec 32) : Statement (.parity32 w) := fun _ r => by
  simp [decodeRecord, Instr.op, Instr.record]
theorem cwEncode (p : Payload) : Statement (.cwEncode p) := fun _ r => by
  simp [decodeRecord, Instr.op, Instr.record]
theorem cwAddress (c : BitVec 32) (f : BitVec 8) : Statement (.cwAddress c f) := fun _ r => by
  simp [decodeRecord, Instr.op, Instr.record, List.append_assoc]
theorem cwMessage (c : Chunk) : Statement (.cwMessage c) := fun _ r => by
  simp [decodeRecord, Instr.op, Instr.record]
theorem textPack (m : List Byte) : Statement (.textPack m) := fun h r => by
  simp [decodeRecord, Instr.op, Instr.record, takeMessage_append h]
theorem batchBuild (c : BitVec 32) (f : BitVec 8) (m : List Byte) : Statement (.batchBuild c f m) := fun h r => by
  simp [decodeRecord, Instr.op, Instr.record, List.append_assoc, takeMessage_append h]
theorem bitsAssemble (b : List Batch) (p : BitVec 16) (i : Bool) : Statement (.bitsAssemble b p i) := fun h r => by
  simp [decodeRecord, Instr.op, Instr.record, List.append_assoc, takeBatches_append h]
theorem bitPeriod (n : Nat) : Statement (.bitPeriod n) := fun h r => by
  simp [decodeRecord, Instr.op, Instr.record, takeNat_append h]
theorem rleEncode (b : Bits) (t : Nat) : Statement (.rleEncode b t) := fun h r => by
  simp only [Instr.wellFormed, Bool.and_eq_true] at h
  simp [decodeRecord, Instr.op, Instr.record, List.append_assoc, takeBitSeq_append h.1, takeNat_append h.2]
theorem lineAction (m : OutputMode) (d : DrivePolarity) (b : Bool) : Statement (.lineAction m d b) := fun h r => by
  simp [decodeRecord, Instr.op, Instr.record, DrivePolarity.ofCode_code h]
theorem idleAction (m : OutputMode) (i : Bool) : Statement (.idleAction m i) := fun _ r => by
  simp [decodeRecord, Instr.op, Instr.record]
theorem transmit (j : Job) : Statement (.transmit j) := fun h r => by
  simp [decodeRecord, Instr.op, Instr.record, takeJob_append h]
theorem enqueue (j : Job) : Statement (.enqueue j) := fun h r => by
  simp [decodeRecord, Instr.op, Instr.record, takeJob_append h]
theorem enqueueTransmission (p : PageRequest) : Statement (.enqueueTransmission p) := fun h r => by
  simp [decodeRecord, Instr.op, Instr.record, takePage_append h]
theorem status : Statement .status := fun _ r => by
  simp [decodeRecord, Instr.op, Instr.record]

end RoundTrip

end Sys2Proof.Laws
end

