-- ==== Sys2Proof/Laws/State.lean ====
section
/-! SUPPORT. One lemma per field per update of the state, so that no proof unfolds a record update. -/

namespace Sys2Proof.Machine

@[simp] theorem setTxState_txState (t : TxState) (s : State) : (setTxState t s).txState = t := rfl
@[simp] theorem setTxState_phase (t : TxState) (s : State) : (setTxState t s).phase = s.phase := rfl
@[simp] theorem setTxState_queue (t : TxState) (s : State) : (setTxState t s).queue = s.queue := rfl
@[simp] theorem setTxState_lastCfg (t : TxState) (s : State) : (setTxState t s).lastCfg = s.lastCfg := rfl
@[simp] theorem setTxState_pin (t : TxState) (s : State) : (setTxState t s).pin = s.pin := rfl
@[simp] theorem setTxState_notes (t : TxState) (s : State) : (setTxState t s).notes = s.notes := rfl
@[simp] theorem setTxState_wave (t : TxState) (s : State) : (setTxState t s).wave = s.wave := rfl
@[simp] theorem setTxState_params (t : TxState) (s : State) : (setTxState t s).params = s.params := rfl
@[simp] theorem setTxState_inputs (t : TxState) (s : State) : (setTxState t s).inputs = s.inputs := rfl
@[simp] theorem setTxState_answers (t : TxState) (s : State) : (setTxState t s).answers = s.answers := rfl
@[simp] theorem setTxState_hwAnswers (t : TxState) (s : State) : (setTxState t s).hwAnswers = s.hwAnswers := rfl
@[simp] theorem setTxState_hwDraws (t : TxState) (s : State) : (setTxState t s).hwDraws = s.hwDraws := rfl

@[simp] theorem setPhase_txState (p : Phase) (s : State) : (setPhase p s).txState = s.txState := rfl
@[simp] theorem setPhase_phase (p : Phase) (s : State) : (setPhase p s).phase = p := rfl
@[simp] theorem setPhase_queue (p : Phase) (s : State) : (setPhase p s).queue = s.queue := rfl
@[simp] theorem setPhase_lastCfg (p : Phase) (s : State) : (setPhase p s).lastCfg = s.lastCfg := rfl
@[simp] theorem setPhase_pin (p : Phase) (s : State) : (setPhase p s).pin = s.pin := rfl
@[simp] theorem setPhase_notes (p : Phase) (s : State) : (setPhase p s).notes = s.notes := rfl
@[simp] theorem setPhase_wave (p : Phase) (s : State) : (setPhase p s).wave = s.wave := rfl
@[simp] theorem setPhase_params (p : Phase) (s : State) : (setPhase p s).params = s.params := rfl
@[simp] theorem setPhase_inputs (p : Phase) (s : State) : (setPhase p s).inputs = s.inputs := rfl
@[simp] theorem setPhase_answers (p : Phase) (s : State) : (setPhase p s).answers = s.answers := rfl
@[simp] theorem setPhase_hwAnswers (p : Phase) (s : State) : (setPhase p s).hwAnswers = s.hwAnswers := rfl
@[simp] theorem setPhase_hwDraws (p : Phase) (s : State) : (setPhase p s).hwDraws = s.hwDraws := rfl

@[simp] theorem setQueue_txState (q : List Job) (s : State) : (setQueue q s).txState = s.txState := rfl
@[simp] theorem setQueue_phase (q : List Job) (s : State) : (setQueue q s).phase = s.phase := rfl
@[simp] theorem setQueue_queue (q : List Job) (s : State) : (setQueue q s).queue = q := rfl
@[simp] theorem setQueue_lastCfg (q : List Job) (s : State) : (setQueue q s).lastCfg = s.lastCfg := rfl
@[simp] theorem setQueue_pin (q : List Job) (s : State) : (setQueue q s).pin = s.pin := rfl
@[simp] theorem setQueue_notes (q : List Job) (s : State) : (setQueue q s).notes = s.notes := rfl
@[simp] theorem setQueue_wave (q : List Job) (s : State) : (setQueue q s).wave = s.wave := rfl
@[simp] theorem setQueue_params (q : List Job) (s : State) : (setQueue q s).params = s.params := rfl
@[simp] theorem setQueue_inputs (q : List Job) (s : State) : (setQueue q s).inputs = s.inputs := rfl
@[simp] theorem setQueue_answers (q : List Job) (s : State) : (setQueue q s).answers = s.answers := rfl
@[simp] theorem setQueue_hwAnswers (q : List Job) (s : State) : (setQueue q s).hwAnswers = s.hwAnswers := rfl
@[simp] theorem setQueue_hwDraws (q : List Job) (s : State) : (setQueue q s).hwDraws = s.hwDraws := rfl

@[simp] theorem setLastCfg_txState (c : Option Cfg) (s : State) : (setLastCfg c s).txState = s.txState := rfl
@[simp] theorem setLastCfg_phase (c : Option Cfg) (s : State) : (setLastCfg c s).phase = s.phase := rfl
@[simp] theorem setLastCfg_queue (c : Option Cfg) (s : State) : (setLastCfg c s).queue = s.queue := rfl
@[simp] theorem setLastCfg_lastCfg (c : Option Cfg) (s : State) : (setLastCfg c s).lastCfg = c := rfl
@[simp] theorem setLastCfg_pin (c : Option Cfg) (s : State) : (setLastCfg c s).pin = s.pin := rfl
@[simp] theorem setLastCfg_notes (c : Option Cfg) (s : State) : (setLastCfg c s).notes = s.notes := rfl
@[simp] theorem setLastCfg_wave (c : Option Cfg) (s : State) : (setLastCfg c s).wave = s.wave := rfl
@[simp] theorem setLastCfg_params (c : Option Cfg) (s : State) : (setLastCfg c s).params = s.params := rfl
@[simp] theorem setLastCfg_inputs (c : Option Cfg) (s : State) : (setLastCfg c s).inputs = s.inputs := rfl
@[simp] theorem setLastCfg_answers (c : Option Cfg) (s : State) : (setLastCfg c s).answers = s.answers := rfl
@[simp] theorem setLastCfg_hwAnswers (c : Option Cfg) (s : State) : (setLastCfg c s).hwAnswers = s.hwAnswers := rfl
@[simp] theorem setLastCfg_hwDraws (c : Option Cfg) (s : State) : (setLastCfg c s).hwDraws = s.hwDraws := rfl

@[simp] theorem writePin_txState (p : Gpio) (v : PinState) (s : State) : (writePin p v s).txState = s.txState := rfl
@[simp] theorem writePin_phase (p : Gpio) (v : PinState) (s : State) : (writePin p v s).phase = s.phase := rfl
@[simp] theorem writePin_queue (p : Gpio) (v : PinState) (s : State) : (writePin p v s).queue = s.queue := rfl
@[simp] theorem writePin_lastCfg (p : Gpio) (v : PinState) (s : State) : (writePin p v s).lastCfg = s.lastCfg := rfl
@[simp] theorem writePin_pin (p : Gpio) (v : PinState) (s : State) : (writePin p v s).pin = pinWrite s.pin p.toNat v := rfl
@[simp] theorem writePin_notes (p : Gpio) (v : PinState) (s : State) : (writePin p v s).notes = s.notes := rfl
@[simp] theorem writePin_wave (p : Gpio) (v : PinState) (s : State) : (writePin p v s).wave = s.wave := rfl
@[simp] theorem writePin_params (p : Gpio) (v : PinState) (s : State) : (writePin p v s).params = s.params := rfl
@[simp] theorem writePin_inputs (p : Gpio) (v : PinState) (s : State) : (writePin p v s).inputs = s.inputs := rfl
@[simp] theorem writePin_answers (p : Gpio) (v : PinState) (s : State) : (writePin p v s).answers = s.answers := rfl
@[simp] theorem writePin_hwAnswers (p : Gpio) (v : PinState) (s : State) : (writePin p v s).hwAnswers = s.hwAnswers := rfl
@[simp] theorem writePin_hwDraws (p : Gpio) (v : PinState) (s : State) : (writePin p v s).hwDraws = s.hwDraws := rfl

@[simp] theorem logWave_txState (l : List WaveItem) (s : State) : (logWave l s).txState = s.txState := rfl
@[simp] theorem logWave_phase (l : List WaveItem) (s : State) : (logWave l s).phase = s.phase := rfl
@[simp] theorem logWave_queue (l : List WaveItem) (s : State) : (logWave l s).queue = s.queue := rfl
@[simp] theorem logWave_lastCfg (l : List WaveItem) (s : State) : (logWave l s).lastCfg = s.lastCfg := rfl
@[simp] theorem logWave_pin (l : List WaveItem) (s : State) : (logWave l s).pin = s.pin := rfl
@[simp] theorem logWave_notes (l : List WaveItem) (s : State) : (logWave l s).notes = s.notes := rfl
@[simp] theorem logWave_wave (l : List WaveItem) (s : State) : (logWave l s).wave = s.wave ++ l := rfl
@[simp] theorem logWave_params (l : List WaveItem) (s : State) : (logWave l s).params = s.params := rfl
@[simp] theorem logWave_inputs (l : List WaveItem) (s : State) : (logWave l s).inputs = s.inputs := rfl
@[simp] theorem logWave_answers (l : List WaveItem) (s : State) : (logWave l s).answers = s.answers := rfl
@[simp] theorem logWave_hwAnswers (l : List WaveItem) (s : State) : (logWave l s).hwAnswers = s.hwAnswers := rfl
@[simp] theorem logWave_hwDraws (l : List WaveItem) (s : State) : (logWave l s).hwDraws = s.hwDraws := rfl

@[simp] theorem notify_txState (n : Note) (s : State) : (notify n s).txState = s.txState := rfl
@[simp] theorem notify_phase (n : Note) (s : State) : (notify n s).phase = s.phase := rfl
@[simp] theorem notify_queue (n : Note) (s : State) : (notify n s).queue = s.queue := rfl
@[simp] theorem notify_lastCfg (n : Note) (s : State) : (notify n s).lastCfg = s.lastCfg := rfl
@[simp] theorem notify_pin (n : Note) (s : State) : (notify n s).pin = s.pin := rfl
@[simp] theorem notify_notes (n : Note) (s : State) : (notify n s).notes = s.notes ++ [n] := rfl
@[simp] theorem notify_wave (n : Note) (s : State) : (notify n s).wave = s.wave := rfl
@[simp] theorem notify_params (n : Note) (s : State) : (notify n s).params = s.params := rfl
@[simp] theorem notify_inputs (n : Note) (s : State) : (notify n s).inputs = s.inputs := rfl
@[simp] theorem notify_answers (n : Note) (s : State) : (notify n s).answers = s.answers := rfl
@[simp] theorem notify_hwAnswers (n : Note) (s : State) : (notify n s).hwAnswers = s.hwAnswers := rfl
@[simp] theorem notify_hwDraws (n : Note) (s : State) : (notify n s).hwDraws = s.hwDraws := rfl

@[simp] theorem answer_txState (a : Answer) (s : State) : (answer a s).txState = s.txState := rfl
@[simp] theorem answer_phase (a : Answer) (s : State) : (answer a s).phase = s.phase := rfl
@[simp] theorem answer_queue (a : Answer) (s : State) : (answer a s).queue = s.queue := rfl
@[simp] theorem answer_lastCfg (a : Answer) (s : State) : (answer a s).lastCfg = s.lastCfg := rfl
@[simp] theorem answer_pin (a : Answer) (s : State) : (answer a s).pin = s.pin := rfl
@[simp] theorem answer_notes (a : Answer) (s : State) : (answer a s).notes = s.notes := rfl
@[simp] theorem answer_wave (a : Answer) (s : State) : (answer a s).wave = s.wave := rfl
@[simp] theorem answer_params (a : Answer) (s : State) : (answer a s).params = s.params := rfl
@[simp] theorem answer_inputs (a : Answer) (s : State) : (answer a s).inputs = s.inputs := rfl
@[simp] theorem answer_answers (a : Answer) (s : State) : (answer a s).answers = s.answers ++ [a] := rfl
@[simp] theorem answer_hwAnswers (a : Answer) (s : State) : (answer a s).hwAnswers = s.hwAnswers := rfl
@[simp] theorem answer_hwDraws (a : Answer) (s : State) : (answer a s).hwDraws = s.hwDraws := rfl

@[simp] theorem setInputs_txState (l : List Input) (s : State) : (setInputs l s).txState = s.txState := rfl
@[simp] theorem setInputs_phase (l : List Input) (s : State) : (setInputs l s).phase = s.phase := rfl
@[simp] theorem setInputs_queue (l : List Input) (s : State) : (setInputs l s).queue = s.queue := rfl
@[simp] theorem setInputs_lastCfg (l : List Input) (s : State) : (setInputs l s).lastCfg = s.lastCfg := rfl
@[simp] theorem setInputs_pin (l : List Input) (s : State) : (setInputs l s).pin = s.pin := rfl
@[simp] theorem setInputs_notes (l : List Input) (s : State) : (setInputs l s).notes = s.notes := rfl
@[simp] theorem setInputs_wave (l : List Input) (s : State) : (setInputs l s).wave = s.wave := rfl
@[simp] theorem setInputs_params (l : List Input) (s : State) : (setInputs l s).params = s.params := rfl
@[simp] theorem setInputs_inputs (l : List Input) (s : State) : (setInputs l s).inputs = l := rfl
@[simp] theorem setInputs_answers (l : List Input) (s : State) : (setInputs l s).answers = s.answers := rfl
@[simp] theorem setInputs_hwAnswers (l : List Input) (s : State) : (setInputs l s).hwAnswers = s.hwAnswers := rfl
@[simp] theorem setInputs_hwDraws (l : List Input) (s : State) : (setInputs l s).hwDraws = s.hwDraws := rfl

/-! The oracle draw changes its own two fields only. -/

@[simp] theorem afterDraw_txState (s : State) : (afterDraw s).txState = s.txState := by
  unfold afterDraw; split <;> rfl
@[simp] theorem afterDraw_phase (s : State) : (afterDraw s).phase = s.phase := by
  unfold afterDraw; split <;> rfl
@[simp] theorem afterDraw_queue (s : State) : (afterDraw s).queue = s.queue := by
  unfold afterDraw; split <;> rfl
@[simp] theorem afterDraw_lastCfg (s : State) : (afterDraw s).lastCfg = s.lastCfg := by
  unfold afterDraw; split <;> rfl
@[simp] theorem afterDraw_pin (s : State) : (afterDraw s).pin = s.pin := by
  unfold afterDraw; split <;> rfl
@[simp] theorem afterDraw_notes (s : State) : (afterDraw s).notes = s.notes := by
  unfold afterDraw; split <;> rfl
@[simp] theorem afterDraw_wave (s : State) : (afterDraw s).wave = s.wave := by
  unfold afterDraw; split <;> rfl
@[simp] theorem afterDraw_params (s : State) : (afterDraw s).params = s.params := by
  unfold afterDraw; split <;> rfl
@[simp] theorem afterDraw_inputs (s : State) : (afterDraw s).inputs = s.inputs := by
  unfold afterDraw; split <;> rfl
@[simp] theorem afterDraw_answers (s : State) : (afterDraw s).answers = s.answers := by
  unfold afterDraw; split <;> rfl

/-! A pin write with its log entry. -/

@[simp] theorem setPin_txState (p : Gpio) (v : PinState) (s : State) : (setPin p v s).txState = s.txState := rfl
@[simp] theorem setPin_phase (p : Gpio) (v : PinState) (s : State) : (setPin p v s).phase = s.phase := rfl
@[simp] theorem setPin_queue (p : Gpio) (v : PinState) (s : State) : (setPin p v s).queue = s.queue := rfl
@[simp] theorem setPin_lastCfg (p : Gpio) (v : PinState) (s : State) : (setPin p v s).lastCfg = s.lastCfg := rfl
@[simp] theorem setPin_pin (p : Gpio) (v : PinState) (s : State) : (setPin p v s).pin = pinWrite s.pin p.toNat v := rfl
@[simp] theorem setPin_notes (p : Gpio) (v : PinState) (s : State) : (setPin p v s).notes = s.notes := rfl
@[simp] theorem setPin_wave (p : Gpio) (v : PinState) (s : State) : (setPin p v s).wave = s.wave ++ [.set p v] := rfl
@[simp] theorem setPin_params (p : Gpio) (v : PinState) (s : State) : (setPin p v s).params = s.params := rfl
@[simp] theorem setPin_inputs (p : Gpio) (v : PinState) (s : State) : (setPin p v s).inputs = s.inputs := rfl
@[simp] theorem setPin_answers (p : Gpio) (v : PinState) (s : State) : (setPin p v s).answers = s.answers := rfl
@[simp] theorem setPin_hwAnswers (p : Gpio) (v : PinState) (s : State) : (setPin p v s).hwAnswers = s.hwAnswers := rfl
@[simp] theorem setPin_hwDraws (p : Gpio) (v : PinState) (s : State) : (setPin p v s).hwDraws = s.hwDraws := rfl

@[simp] theorem returnIdle_txState (s : State) : (returnIdle s).txState = .idle := rfl
@[simp] theorem returnIdle_phase (s : State) : (returnIdle s).phase = s.phase := rfl
@[simp] theorem returnIdle_queue (s : State) : (returnIdle s).queue = s.queue := rfl
@[simp] theorem returnIdle_lastCfg (s : State) : (returnIdle s).lastCfg = s.lastCfg := rfl
@[simp] theorem returnIdle_pin (s : State) : (returnIdle s).pin = s.pin := rfl
@[simp] theorem returnIdle_notes (s : State) : (returnIdle s).notes = s.notes := rfl
@[simp] theorem returnIdle_wave (s : State) : (returnIdle s).wave = s.wave := rfl
@[simp] theorem returnIdle_params (s : State) : (returnIdle s).params = s.params := rfl
@[simp] theorem returnIdle_inputs (s : State) : (returnIdle s).inputs = s.inputs := rfl
@[simp] theorem returnIdle_answers (s : State) : (returnIdle s).answers = s.answers := rfl
@[simp] theorem returnIdle_hwAnswers (s : State) : (returnIdle s).hwAnswers = s.hwAnswers := rfl
@[simp] theorem returnIdle_hwDraws (s : State) : (returnIdle s).hwDraws = s.hwDraws := rfl

@[simp] theorem jobCfg_pin (job : Job) : (jobCfg job).pin = job.gpio := rfl
@[simp] theorem jobCfg_mode (job : Job) : (jobCfg job).mode = job.mode := rfl
@[simp] theorem jobCfg_idleHigh (job : Job) : (jobCfg job).idleHigh = job.idleHigh := rfl

/-- The oracle draw sees only the two oracle fields. -/
theorem hwOf_congr {s t : State} (ha : s.hwAnswers = t.hwAnswers) (hd : s.hwDraws = t.hwDraws) : hwOf s = hwOf t := by
  simp [hwOf, ha, hd]

/-- `GPIO_VALID` is a matter of the parameters alone. -/
theorem gpioValid_congr {s t : State} (h : s.params = t.params) (p : Gpio) : gpioValid s p = gpioValid t p := by
  simp [gpioValid, h]

/-- The idle state of a job is a matter of the parameters alone. -/
theorem jobIdle_congr {s t : State} (h : s.params = t.params) (job : Job) : jobIdle job s = jobIdle job t := by
  simp [jobIdle, h]

end Sys2Proof.Machine
end

