-- ==== Sys2Proof/Laws/Pins.lean ====
section
/-! SUPPORT. The pin space: read after write, and the canonical form every write keeps. -/

namespace Sys2Proof.Machine

@[simp] theorem pinRead_nil (p : Nat) : pinRead [] p = .hiZ := rfl

@[simp] theorem pinRead_cons (q : Nat) (st : PinState) (m : PinMap) (p : Nat) :
    pinRead ((q, st) :: m) p = if q = p then st else pinRead m p := rfl

theorem pinErase_cons (q : Nat) (st : PinState) (m : PinMap) (p : Nat) :
    pinErase ((q, st) :: m) p = if q = p then pinErase m p else (q, st) :: pinErase m p := by
  by_cases h : q = p <;> simp [pinErase, h]

theorem pinRead_pinErase_self (m : PinMap) (p : Nat) : pinRead (pinErase m p) p = .hiZ := by
  induction m with
  | nil => rfl
  | cons e m ih =>
    obtain ⟨q, st⟩ := e
    by_cases h : q = p <;> simp [pinErase_cons, h, ih]

theorem pinRead_pinErase_of_ne (m : PinMap) {p q : Nat} (h : q ≠ p) : pinRead (pinErase m p) q = pinRead m q := by
  induction m with
  | nil => rfl
  | cons e m ih =>
    obtain ⟨r, st⟩ := e
    by_cases hr : r = p
    · subst hr; simp [pinErase_cons, ih, Ne.symm h]
    · simp [pinErase_cons, hr, ih]

theorem pinRead_pinInsert_self (m : PinMap) (p : Nat) (st : PinState) (h : ∀ e ∈ m, e.1 ≠ p) :
    pinRead (pinInsert p st m) p = st := by
  induction m with
  | nil => simp [pinInsert]
  | cons e m ih =>
    obtain ⟨q, v⟩ := e
    have hq : q ≠ p := h (q, v) (by simp)
    have hm := ih fun e he => h e (by simp [he])
    by_cases hlt : p < q <;> simp [pinInsert, hlt, hq, hm]

theorem pinRead_pinInsert_of_ne (m : PinMap) {p q : Nat} (st : PinState) (h : q ≠ p) :
    pinRead (pinInsert p st m) q = pinRead m q := by
  induction m with
  | nil => simp [pinInsert, Ne.symm h]
  | cons e m ih =>
    obtain ⟨r, v⟩ := e
    by_cases hlt : p < r <;> simp [pinInsert, hlt, ih, Ne.symm h]

theorem mem_pinErase {m : PinMap} {p : Nat} {e : Nat × PinState} : e ∈ pinErase m p ↔ e ∈ m ∧ e.1 ≠ p := by
  simp [pinErase]

theorem mem_pinInsert {m : PinMap} {p : Nat} {st : PinState} {e : Nat × PinState} :
    e ∈ pinInsert p st m ↔ e = (p, st) ∨ e ∈ m := by
  induction m with
  | nil => simp [pinInsert]
  | cons f m ih =>
    by_cases hlt : p < f.1
    · simp [pinInsert, hlt]
    · simp [pinInsert, hlt, ih, or_left_comm]

/-- A pin reads as what was written to it; every other pin reads as before. -/
theorem pinRead_pinWrite (m : PinMap) (p q : Nat) (st : PinState) :
    pinRead (pinWrite m p st) q = if q = p then st else pinRead m q := by
  unfold pinWrite
  by_cases hz : st = .hiZ
  · by_cases hq : q = p
    · subst hq; simp [hz, pinRead_pinErase_self]
    · simp [hz, hq, pinRead_pinErase_of_ne]
  · by_cases hq : q = p
    · subst hq
      simp [hz, pinRead_pinInsert_self _ _ _ fun e he => (mem_pinErase.1 he).2]
    · simp [hz, hq, pinRead_pinInsert_of_ne, pinRead_pinErase_of_ne]

/-- What a write lists: the entry itself unless it is `HiZ`, and the old entries of other pins. -/
theorem mem_pinWrite {m : PinMap} {p : Nat} {st : PinState} {e : Nat × PinState} :
    e ∈ pinWrite m p st ↔ (st ≠ .hiZ ∧ e = (p, st)) ∨ (e ∈ m ∧ e.1 ≠ p) := by
  unfold pinWrite
  by_cases hz : st = .hiZ <;> simp [hz, mem_pinInsert, mem_pinErase]

/-- The canonical form, said of the list: rising pin numbers, nothing listed as `HiZ`. -/
theorem PinMap.wf_iff (m : PinMap) :
    PinMap.wf m = true ↔ m.Pairwise (fun e f => e.1 < f.1) ∧ ∀ e ∈ m, e.2 ≠ .hiZ := by
  induction m with
  | nil => simp [PinMap.wf]
  | cons e m ih =>
    cases m with
    | nil => simp [PinMap.wf]
    | cons f m =>
      rw [PinMap.wf]
      simp only [Bool.and_eq_true, bne_iff_ne, ne_eq, decide_eq_true_eq, ih, List.pairwise_cons, List.mem_cons]
      constructor
      · rintro ⟨⟨he, hlt⟩, ⟨hf, hm⟩, hz⟩
        refine ⟨⟨?_, hf, hm⟩, ?_⟩
        · rintro g (rfl | hg)
          · exact hlt
          · exact lt_trans hlt (hf g hg)
        · rintro g (rfl | hg)
          · exact he
          · exact hz g hg
      · rintro ⟨⟨he, hf, hm⟩, hz⟩
        exact ⟨⟨hz e (.inl rfl), he f (.inl rfl)⟩, ⟨hf, hm⟩, fun g hg => hz g (.inr hg)⟩

theorem pairwise_pinInsert {m : PinMap} {p : Nat} {st : PinState} (h : m.Pairwise fun e f => e.1 < f.1)
    (hp : ∀ e ∈ m, e.1 ≠ p) : (pinInsert p st m).Pairwise fun e f => e.1 < f.1 := by
  induction m with
  | nil => simp [pinInsert]
  | cons e m ih =>
    rw [List.pairwise_cons] at h
    by_cases hlt : p < e.1
    · simp only [pinInsert, hlt, if_true, List.pairwise_cons, List.mem_cons]
      exact ⟨fun f hf => hf.elim (fun h' => h' ▸ hlt) fun hf => lt_trans hlt (h.1 f hf), h⟩
    · simp only [pinInsert, hlt, if_false, List.pairwise_cons]
      refine ⟨fun f hf => ?_, ih h.2 fun f hf => hp f (List.mem_cons_of_mem _ hf)⟩
      rcases mem_pinInsert.1 hf with rfl | hf
      · have := hp e (by simp)
        exact lt_of_le_of_ne (not_lt.1 hlt) this
      · exact h.1 f hf

/-- Every write keeps the canonical form. -/
theorem pinWrite_wf {m : PinMap} (p : Nat) (st : PinState) (h : PinMap.wf m = true) :
    PinMap.wf (pinWrite m p st) = true := by
  rw [PinMap.wf_iff] at h ⊢
  obtain ⟨hs, hz⟩ := h
  have he : (pinErase m p).Pairwise fun e f => e.1 < f.1 := hs.filter _
  refine ⟨?_, fun e hm => ?_⟩
  · unfold pinWrite
    split
    · exact he
    · exact pairwise_pinInsert he fun e hm => (mem_pinErase.1 hm).2
  · rcases mem_pinWrite.1 hm with ⟨hst, rfl⟩ | ⟨hm, -⟩
    · exact hst
    · exact hz e hm

end Sys2Proof.Machine
end

