-- ==== Sys2Proof/Laws/Transmit.lean ====
section
/-! SUPPORT. What the body of `transmit` does, said once: its frame, its log, its pins (spec/43_waveform_transmitter.md). -/

namespace Sys2Proof.Machine

/-- What no part of the body of `transmit` touches. -/
structure TxFrame (s t : State) : Prop where
  txState : t.txState = s.txState
  phase : t.phase = s.phase
  queue : t.queue = s.queue
  notes : t.notes = s.notes
  params : t.params = s.params
  inputs : t.inputs = s.inputs
  answers : t.answers = s.answers

theorem TxFrame.refl (s : State) : TxFrame s s := ⟨rfl, rfl, rfl, rfl, rfl, rfl, rfl⟩

theorem TxFrame.trans {s t u : State} (h : TxFrame s t) (k : TxFrame t u) : TxFrame s u :=
  ⟨k.1.trans h.1, k.2.trans h.2, k.3.trans h.3, k.4.trans h.4, k.5.trans h.5, k.6.trans h.6, k.7.trans h.7⟩

/-- The frame together with the two oracle fields. -/
structure LineFrame (s t : State) : Prop extends TxFrame s t where
  hwAnswers : t.hwAnswers = s.hwAnswers
  hwDraws : t.hwDraws = s.hwDraws

theorem LineFrame.refl (s : State) : LineFrame s s := ⟨.refl s, rfl, rfl⟩

theorem LineFrame.trans {s t u : State} (h : LineFrame s t) (k : LineFrame t u) : LineFrame s u :=
  ⟨h.toTxFrame.trans k.toTxFrame, k.2.trans h.2, k.3.trans h.3⟩

theorem setPin_frame (p : Gpio) (v : PinState) (s : State) : LineFrame s (setPin p v s) :=
  ⟨⟨rfl, rfl, rfl, rfl, rfl, rfl, rfl⟩, rfl, rfl⟩

theorem setLastCfg_frame (c : Option Cfg) (s : State) : LineFrame s (setLastCfg c s) :=
  ⟨⟨rfl, rfl, rfl, rfl, rfl, rfl, rfl⟩, rfl, rfl⟩

theorem afterDraw_frame (s : State) : TxFrame s (afterDraw s) := by constructor <;> simp

theorem afterDraw_hwAnswers (s : State) : (afterDraw s).hwAnswers = s.hwAnswers.tail := by
  unfold afterDraw; split <;> simp_all

theorem afterDraw_hwDraws (s : State) :
    (afterDraw s).hwDraws = if s.hwAnswers = [] then s.hwDraws + 1 else s.hwDraws := by
  unfold afterDraw; split <;> simp_all

/-! ### Hand-back and configuration -/

/-- The hand-back writes `HiZ` to the pins handed back and logs it, and nothing else. -/
theorem releaseOld_spec (cfg : Cfg) (s : State) :
    LineFrame s (releaseOld cfg s) ∧ (releaseOld cfg s).lastCfg = s.lastCfg ∧
    (releaseOld cfg s).wave = s.wave ++ handBackItems s cfg ∧
    (∀ q, pinRead (releaseOld cfg s).pin q =
      if (handedBack s cfg).any (fun g => g.toNat == q) then .hiZ else pinRead s.pin q) ∧
    (PinMap.wf s.pin = true → PinMap.wf (releaseOld cfg s).pin = true) ∧
    ∀ e ∈ (releaseOld cfg s).pin, e ∈ s.pin := by
  unfold releaseOld handBackItems handedBack
  cases hc : s.lastCfg with
  | none => simp [hc, LineFrame.refl]
  | some old =>
    by_cases hp : old.pin = cfg.pin
    · simp [hp, hc, LineFrame.refl]
    · simp only [hp, if_false]
      refine ⟨setPin_frame _ _ _, hc, by simp, fun q => ?_, fun h => by simpa using pinWrite_wf _ _ h, fun e he => ?_⟩
      · rw [setPin_pin, pinRead_pinWrite]
        by_cases hq : q = old.pin.toNat
        · simp [hq]
        · simp [hq, Ne.symm hq]
      · rw [setPin_pin, mem_pinWrite] at he
        simp at he
        exact he.1

/-- The three ways a configuration goes: skipped, failed, done (R179). -/
theorem configure_cases (cfg : Cfg) (hw : HwOutcome) (s : State) :
    (s.lastCfg = some cfg ∧ configure cfg hw s = (s, true)) ∨
    (s.lastCfg ≠ some cfg ∧ (gpioValid s cfg.pin = false ∨ hw.cfg = .fail) ∧
      configure cfg hw s = (setLastCfg none (releaseOld cfg s), false)) ∨
    (s.lastCfg ≠ some cfg ∧ gpioValid s cfg.pin = true ∧ hw.cfg = .ok ∧
      configure cfg hw s = (setLastCfg (some cfg) (releaseOld cfg s), true)) := by
  unfold configure
  by_cases h : s.lastCfg = some cfg
  · simp [h]
  · by_cases hv : gpioValid s cfg.pin = true
    · cases hw.cfg <;> simp [h, hv]
    · simp [h, hv]

/-! ### The pulses -/

theorem foldl_playPulse_spec (job : Job) (ds : List Desc) (s : State) :
    LineFrame s (ds.foldl (playPulse job) s) ∧ (ds.foldl (playPulse job) s).lastCfg = s.lastCfg ∧
    (ds.foldl (playPulse job) s).wave = s.wave ++ pulseItems job ds ∧
    (∀ q, q ≠ job.gpio.toNat → pinRead (ds.foldl (playPulse job) s).pin q = pinRead s.pin q) ∧
    (PinMap.wf s.pin = true → PinMap.wf (ds.foldl (playPulse job) s).pin = true) ∧
    ∀ e ∈ (ds.foldl (playPulse job) s).pin, e.1 ≠ job.gpio.toNat → e ∈ s.pin := by
  induction ds generalizing s with
  | nil => exact ⟨.refl s, rfl, by simp [pulseItems], fun _ _ => rfl, fun h => h, fun e he _ => he⟩
  | cons d ds ih =>
    obtain ⟨hf, hc, hw, hp, hwf, hm⟩ := ih (playPulse job s d)
    have h1 : LineFrame s (playPulse job s d) := ⟨⟨rfl, rfl, rfl, rfl, rfl, rfl, rfl⟩, rfl, rfl⟩
    refine ⟨h1.trans hf, hc, ?_, fun q hq => ?_, fun h => hwf (pinWrite_wf _ _ h), fun e he hne => ?_⟩
    · rw [List.foldl_cons, hw]
      simp [playPulse, pulseItems]
    · rw [List.foldl_cons, hp q hq]
      simp [playPulse, pinRead_pinWrite, hq]
    · have := hm e he hne
      simp only [playPulse, logWave_pin, writePin_pin, mem_pinWrite] at this
      rcases this with ⟨-, rfl⟩ | ⟨h, -⟩
      · exact absurd rfl hne
      · exact h

/-- `emit` logs the first `k` pulses and, if any is left, one fragment; it touches no other pin (R180). -/
theorem emit_spec (job : Job) (ds : List Desc) (k : Nat) (s : State) :
    LineFrame s (emit job ds k s) ∧ (emit job ds k s).lastCfg = s.lastCfg ∧
    (emit job ds k s).wave = s.wave ++ pulseItems job (ds.take k) ++
      (if k < ds.length then [.partialPulse job.gpio] else []) ∧
    (∀ q, q ≠ job.gpio.toNat → pinRead (emit job ds k s).pin q = pinRead s.pin q) ∧
    (PinMap.wf s.pin = true → PinMap.wf (emit job ds k s).pin = true) ∧
    ∀ e ∈ (emit job ds k s).pin, e.1 ≠ job.gpio.toNat → e ∈ s.pin := by
  obtain ⟨hf, hc, hw, hp, hwf, hm⟩ := foldl_playPulse_spec job (ds.take k) s
  unfold emit
  by_cases hk : k < ds.length
  · simp only [hk, if_true]
    refine ⟨hf.trans ⟨⟨rfl, rfl, rfl, rfl, rfl, rfl, rfl⟩, rfl, rfl⟩, hc, ?_, hp, hwf, hm⟩
    simp [hw]
  · simp only [hk, if_false]
    exact ⟨hf, hc, by simp [hw], hp, hwf, hm⟩

/-- The starting state: the first pulse's state on the job's own pin, logged (R177). -/
theorem startLine_spec (job : Job) (ds : List Desc) (s : State) :
    LineFrame s (startLine job ds s) ∧ (startLine job ds s).lastCfg = s.lastCfg ∧
    (∀ d rest, ds = d :: rest →
      (startLine job ds s).wave = s.wave ++ [.set job.gpio (levelState job.mode d.level)]) ∧
    (s.wave <+: (startLine job ds s).wave) ∧
    (∀ q, q ≠ job.gpio.toNat → pinRead (startLine job ds s).pin q = pinRead s.pin q) ∧
    (PinMap.wf s.pin = true → PinMap.wf (startLine job ds s).pin = true) ∧
    ∀ e ∈ (startLine job ds s).pin, e.1 ≠ job.gpio.toNat → e ∈ s.pin := by
  cases ds with
  | nil =>
    exact ⟨.refl s, rfl, by simp, List.prefix_refl _, fun _ _ => rfl, fun h => h, fun e he _ => he⟩
  | cons d rest =>
    refine ⟨setPin_frame _ _ _, rfl, fun d' r h => ?_, ?_, fun q hq => ?_, fun h => pinWrite_wf _ _ h, fun e he hne => ?_⟩
    · cases h; rfl
    · simp [startLine]
    · simp [startLine, pinRead_pinWrite, hq]
    · simp only [startLine, setPin_pin, mem_pinWrite] at he
      rcases he with ⟨-, rfl⟩ | ⟨h, -⟩
      · exact absurd rfl hne
      · exact h

/-! ### Forced idle and failure -/

/-- The forced idle state of an existing pin (R181). -/
theorem assertIdle_spec (job : Job) (s : State) :
    LineFrame s (assertIdle job s) ∧ (assertIdle job s).lastCfg = s.lastCfg ∧
    (gpioValid s job.gpio = true → assertIdle job s = setPin job.gpio (jobIdle job s) s) ∧
    (gpioValid s job.gpio = false → assertIdle job s = s) := by
  unfold assertIdle
  by_cases hv : gpioValid s job.gpio = true
  · simp [hv, setPin_frame]
  · simp [hv, LineFrame.refl]

/-- What `last_cfg` is after the re-initialisation attempt (R182). -/
theorem reinitialise_eq (job : Job) (hw : HwOutcome) (s : State) :
    reinitialise job hw s =
      setLastCfg (if gpioValid s job.gpio = true ∧ hw.reinit = .ok then some (jobCfg job) else none) s := by
  unfold reinitialise; split <;> rfl

/-- The descriptors of a non-empty sequence are not empty (R180: `len(descs) ≥ 1`). -/
theorem runs_ne_nil {bits : Bits} (h : bits ≠ []) : runs bits ≠ [] := by
  cases bits with
  | nil => exact absurd rfl h
  | cons b bs =>
    rw [runs]
    split
    · simp
    · split <;> simp

theorem splitRun_ne_nil (l : Bool) (d : Nat) : splitRun l d ≠ [] := by simp [splitRun]

theorem rleEncode_ne_nil {bits : Bits} (h : bits ≠ []) (T : Nat) : rleEncode bits T ≠ [] := by
  unfold rleEncode
  cases hr : runs bits with
  | nil => exact absurd hr (runs_ne_nil h)
  | cons r rest =>
    intro hn
    rw [List.flatMap_cons, List.append_eq_nil_iff] at hn
    exact splitRun_ne_nil _ _ hn.1

/-- The loop of R174 on one run: a run of more than 32767 ticks starts with a full-length sub-pulse. -/
theorem splitRun_long (l : Bool) {d : Nat} (h : Config.maxPulseTicks < d) :
    splitRun l d = ⟨l, Config.maxPulseTicks⟩ :: splitRun l (d - Config.maxPulseTicks) := by
  unfold Config.maxPulseTicks at *
  obtain ⟨e, rfl⟩ := Nat.exists_eq_add_of_lt h
  have h1 : (32767 + e + 1 - 1) / 32767 = (32767 + e + 1 - 32767 - 1) / 32767 + 1 := by omega
  have h2 : 32767 + e + 1 - ((32767 + e + 1 - 32767 - 1) / 32767 + 1) * 32767 =
      32767 + e + 1 - 32767 - (32767 + e + 1 - 32767 - 1) / 32767 * 32767 := by omega
  simp only [splitRun, Config.maxPulseTicks]
  rw [h1, h2, List.replicate_succ, List.cons_append]

/-- The loop of R174 on one run: a run of at most 32767 ticks is one descriptor. -/
theorem splitRun_short (l : Bool) {d : Nat} (h : d ≤ Config.maxPulseTicks) : splitRun l d = [⟨l, d⟩] := by
  have h1 : (d - 1) / Config.maxPulseTicks = 0 := Nat.div_eq_of_lt (by unfold Config.maxPulseTicks at *; omega)
  simp [splitRun, h1]

/-- The bauds for which the spec gives a period (R170). -/
theorem bitPeriod_eq_some_iff (baud T : Nat) :
    bitPeriod baud = some T ↔ 1 ≤ baud ∧ baud ≤ 2000000 ∧ T = (2000000 + baud) / (2 * baud) := by
  simp only [bitPeriod, Config.tickHz]
  by_cases h0 : baud = 0
  · simp [h0]
  · have hpos : 0 < 2 * baud := by omega
    by_cases hz : (2 * 1000000 + baud) / (2 * baud) = 0
    · simp only [h0, hz, if_true, if_false]
      rw [Nat.div_eq_zero_iff_lt hpos] at hz
      constructor
      · intro h; cases h
      · rintro ⟨-, h2, -⟩; omega
    · simp only [h0, hz, if_false, Option.some.injEq]
      rw [Nat.div_eq_zero_iff_lt hpos] at hz
      constructor
      · rintro rfl; exact ⟨by omega, by omega, rfl⟩
      · rintro ⟨-, -, rfl⟩; rfl

theorem bitPeriod_eq_none_iff (baud : Nat) : bitPeriod baud = none ↔ baud = 0 ∨ 2000000 < baud := by
  constructor
  · intro h
    by_contra hc
    have := (bitPeriod_eq_some_iff baud _).2 ⟨by omega, by omega, rfl⟩
    rw [h] at this
    cases this
  · intro h
    cases hb : bitPeriod baud with
    | none => rfl
    | some T =>
      obtain ⟨h1, h2, -⟩ := (bitPeriod_eq_some_iff baud T).1 hb
      omega

/-- The body's case split: empty, or played with the drawn oracle value (R180). -/
theorem transmitBody_ok_cases {job : Job} {s : State} {r : State × TxResult} (h : transmitBody job s = .ok r) :
    (job.bits = [] ∧ r = (assertIdle job s, .ok)) ∨
    (job.bits ≠ [] ∧ lineRefused job.mode job.drive = false ∧ ∃ T, bitPeriod job.baud = some T ∧
      r = playWaveform job (rleEncode job.bits T) (hwOf s) (afterDraw s)) := by
  unfold transmitBody at h
  split at h
  · rename_i hb
    cases h
    exact .inl ⟨hb, rfl⟩
  · rename_i hb
    split at h
    · cases h
    · rename_i hl
      split at h
      · cases h
      · rename_i T hT
        cases h
        exact .inr ⟨hb, by simpa using hl, T, hT, rfl⟩

/-- A playable job is refused nothing. -/
theorem transmitBody_of_playable {job : Job} (s : State) (h : playable job) : ∃ r, transmitBody job s = .ok r := by
  unfold transmitBody
  split
  · exact ⟨_, rfl⟩
  · rename_i hb
    obtain h | ⟨hl, h1, h2⟩ := h
    · exact absurd h hb
    · have hr : lineRefused job.mode job.drive = false := by
        simpa [lineRefused] using hl
      have hT := (bitPeriod_eq_some_iff job.baud _).2 ⟨h1, h2, rfl⟩
      simp only [hr, hT, Bool.false_eq_true, if_false]
      exact ⟨_, rfl⟩

/-! ### The whole body -/

/-- A configured peripheral (skipped or done): the configuration, the hand-back in log and pins, nothing else (R179). -/
theorem configure_true {cfg : Cfg} {hw : HwOutcome} {s : State} (h : (configure cfg hw s).2 = true) :
    LineFrame s (configure cfg hw s).1 ∧ (configure cfg hw s).1.lastCfg = some cfg ∧
    (configure cfg hw s).1.wave = s.wave ++ handBackItems s cfg ∧
    (∀ q, pinRead (configure cfg hw s).1.pin q =
      if (handedBack s cfg).any (fun g => g.toNat == q) then .hiZ else pinRead s.pin q) ∧
    (PinMap.wf s.pin = true → PinMap.wf (configure cfg hw s).1.pin = true) ∧
    (∀ e ∈ (configure cfg hw s).1.pin, e ∈ s.pin) ∧
    (s.lastCfg = some cfg ∨ gpioValid s cfg.pin = true) := by
  obtain ⟨hf, -, hw', hp, hwf, hm⟩ := releaseOld_spec cfg s
  rcases configure_cases cfg hw s with ⟨hc, he⟩ | ⟨-, -, he⟩ | ⟨-, hv, -, he⟩
  · have hb : handedBack s cfg = [] := by simp [handedBack, hc]
    rw [he]
    exact ⟨.refl s, hc, by simp [handBackItems, hb], fun q => by simp [hb], fun h => h, fun e he => he, .inl hc⟩
  · rw [he] at h; cases h
  · rw [he]
    exact ⟨hf.trans (setLastCfg_frame _ _), rfl, hw', hp, hwf, hm, .inr hv⟩

/-- A failed configuration: `last_cfg` is `None`, the hand-back in log and pins, nothing else (R179). -/
theorem configure_false {cfg : Cfg} {hw : HwOutcome} {s : State} (h : (configure cfg hw s).2 = false) :
    LineFrame s (configure cfg hw s).1 ∧ (configure cfg hw s).1.lastCfg = none ∧
    (configure cfg hw s).1.wave = s.wave ++ handBackItems s cfg ∧
    (∀ q, pinRead (configure cfg hw s).1.pin q =
      if (handedBack s cfg).any (fun g => g.toNat == q) then .hiZ else pinRead s.pin q) ∧
    (PinMap.wf s.pin = true → PinMap.wf (configure cfg hw s).1.pin = true) ∧
    (∀ e ∈ (configure cfg hw s).1.pin, e ∈ s.pin) ∧
    s.lastCfg ≠ some cfg ∧ (gpioValid s cfg.pin = false ∨ hw.cfg = .fail) := by
  obtain ⟨hf, -, hw', hp, hwf, hm⟩ := releaseOld_spec cfg s
  rcases configure_cases cfg hw s with ⟨hc, he⟩ | ⟨hn, hv, he⟩ | ⟨-, hv, -, he⟩
  · rw [he] at h; cases h
  · rw [he]
    exact ⟨hf.trans (setLastCfg_frame _ _), rfl, hw', hp, hwf, hm, hn, hv⟩
  · rw [he] at h; cases h

/-- What a failure leaves on a pin that exists (R182). -/
theorem failTransmit_spec (cause : HwCause) (job : Job) (hw : HwOutcome) (s : State)
    (hv : gpioValid s job.gpio = true) :
    (failTransmit cause job hw s).2 = .fail cause ∧ LineFrame s (failTransmit cause job hw s).1 ∧
    (failTransmit cause job hw s).1.lastCfg = (if hw.reinit = .ok then some (jobCfg job) else none) ∧
    (failTransmit cause job hw s).1.wave = s.wave ++ [.set job.gpio (jobIdle job s)] ∧
    (failTransmit cause job hw s).1.pin = pinWrite s.pin job.gpio.toNat (jobIdle job s) := by
  simp only [failTransmit, reinitialise_eq, hv, true_and]
  generalize (if hw.reinit = .ok then some (jobCfg job) else none) = c
  obtain ⟨hf, hc, ht, -⟩ := assertIdle_spec job (setLastCfg c s)
  rw [ht hv] at hf hc ⊢
  exact ⟨(setLastCfg_frame c s).trans hf, hc, rfl, rfl⟩

/-- What a failure leaves when the pin does not exist: `last_cfg` is `None` (R182). -/
theorem failTransmit_noPin (cause : HwCause) (job : Job) (hw : HwOutcome) (s : State)
    (hv : gpioValid s job.gpio = false) :
    failTransmit cause job hw s = (setLastCfg none s, .fail cause) := by
  have hr : reinitialise job hw s = setLastCfg none s := by simp [reinitialise_eq, hv]
  obtain ⟨-, -, -, hf⟩ := assertIdle_spec job (setLastCfg none s)
  rw [failTransmit, hr, hf hv]

/-- The pulses of a job: everything between the configuration and the forced idle state (R177, R180). -/
def played (job : Job) (ds : List Desc) (k : Nat) (s : State) : State := emit job ds k (startLine job ds s)

theorem played_spec (job : Job) (d : Desc) (ds : List Desc) (k : Nat) (s : State) :
    LineFrame s (played job (d :: ds) k s) ∧ (played job (d :: ds) k s).lastCfg = s.lastCfg ∧
    (played job (d :: ds) k s).wave = s.wave ++ [.set job.gpio (levelState job.mode d.level)] ++
      pulseItems job ((d :: ds).take k) ++ (if k < ds.length + 1 then [.partialPulse job.gpio] else []) ∧
    (∀ q, q ≠ job.gpio.toNat → pinRead (played job (d :: ds) k s).pin q = pinRead s.pin q) ∧
    (PinMap.wf s.pin = true → PinMap.wf (played job (d :: ds) k s).pin = true) ∧
    ∀ e ∈ (played job (d :: ds) k s).pin, e.1 ≠ job.gpio.toNat → e ∈ s.pin := by
  obtain ⟨hf, hc, hw, -, hp, hwf, hm⟩ := startLine_spec job (d :: ds) s
  obtain ⟨ef, ec, ew, ep, ewf, em⟩ := emit_spec job (d :: ds) k (startLine job (d :: ds) s)
  refine ⟨hf.trans ef, ec.trans hc, ?_, fun q hq => (ep q hq).trans (hp q hq), fun h => ewf (hwf h),
    fun e he hne => hm e (em e he hne) hne⟩
  rw [played, ew, hw d ds rfl]
  simp

/-- The three ways a waveform on a configured peripheral ends: write failure, time-out, success (R180, R224). -/
theorem playConfigured_cases (job : Job) (ds : List Desc) (hw : HwOutcome) (s : State) :
    (hw.write = .fail ∧
      playConfigured job ds hw s = failTransmit .writeFail job hw (played job ds (min hw.emitted ds.length) s)) ∨
    (hw.write = .ok ∧ hw.wait = .timeout ∧
      playConfigured job ds hw s = failTransmit .timeout job hw (played job ds (min hw.emitted ds.length) s)) ∨
    (hw.write = .ok ∧ hw.wait = .done ∧
      playConfigured job ds hw s = (setPin job.gpio (jobIdle job s) (played job ds ds.length s), .ok)) := by
  unfold playConfigured played
  cases hw.write <;> cases hw.wait <;> simp

/-- Every way out of the body but a refusal (R180 to R182): the frame, the growing log, never `BusyRejected`. -/
theorem playWaveform_frame (job : Job) {ds : List Desc} (hd : ds ≠ []) (hw : HwOutcome) (s : State) :
    LineFrame s (playWaveform job ds hw s).1 ∧ s.wave <+: (playWaveform job ds hw s).1.wave ∧
    (playWaveform job ds hw s).2 ≠ .busyRejected := by
  have fail (c : HwCause) (t : State) (hf : LineFrame s t) (hp : s.wave <+: t.wave) :
      LineFrame s (failTransmit c job hw t).1 ∧ s.wave <+: (failTransmit c job hw t).1.wave ∧
      (failTransmit c job hw t).2 ≠ .busyRejected := by
    by_cases hv : gpioValid t job.gpio = true
    · obtain ⟨hr, hf', -, hw', -⟩ := failTransmit_spec c job hw t hv
      exact ⟨hf.trans hf', by rw [hw']; exact hp.trans (List.prefix_append _ _), by rw [hr]; simp⟩
    · rw [failTransmit_noPin c job hw t (by simpa using hv)]
      exact ⟨hf.trans (setLastCfg_frame _ _), hp, by simp⟩
  unfold playWaveform
  split
  · rename_i hc
    obtain ⟨cf, -, cw, -⟩ := configure_true hc
    generalize (configure (jobCfg job) hw s).1 = s1 at *
    have hs1 : s.wave <+: s1.wave := by rw [cw]; exact List.prefix_append _ _
    obtain ⟨d, rest, rfl⟩ := List.exists_cons_of_ne_nil hd
    have pl (k : Nat) : LineFrame s (played job (d :: rest) k s1) ∧ s.wave <+: (played job (d :: rest) k s1).wave := by
      obtain ⟨pf, -, pw, -⟩ := played_spec job d rest k s1
      refine ⟨cf.trans pf, ?_⟩
      rw [pw, List.append_assoc, List.append_assoc]
      exact hs1.trans (List.prefix_append _ _)
    rcases playConfigured_cases job (d :: rest) hw s1 with ⟨-, he⟩ | ⟨-, -, he⟩ | ⟨-, -, he⟩
    · rw [he]; exact fail _ _ (pl _).1 (pl _).2
    · rw [he]; exact fail _ _ (pl _).1 (pl _).2
    · rw [he]
      exact ⟨(pl _).1.trans (setPin_frame _ _ _), (pl _).2.trans (List.prefix_append _ _), by simp⟩
  · rename_i hc
    obtain ⟨cf, -, cw, -⟩ := configure_false (by simpa using hc)
    exact fail _ _ cf (by rw [cw]; exact List.prefix_append _ _)

/-- The frame of the body: whatever it does, it touches `last_cfg`, the pins, the log and the oracle only. -/
theorem transmitBody_frame {job : Job} {s : State} {r : State × TxResult} (h : transmitBody job s = .ok r) :
    TxFrame s r.1 ∧ s.wave <+: r.1.wave ∧ r.2 ≠ .busyRejected := by
  rcases transmitBody_ok_cases h with ⟨-, rfl⟩ | ⟨hb, -, T, -, rfl⟩
  · obtain ⟨hf, -, hv, hn⟩ := assertIdle_spec job s
    refine ⟨hf.toTxFrame, ?_, by simp⟩
    by_cases hg : gpioValid s job.gpio = true
    · simp only [hv hg]; exact List.prefix_append _ _
    · simp only [hn (by simpa using hg)]; exact List.prefix_refl _
  · obtain ⟨hf, hp, hr⟩ := playWaveform_frame job (rleEncode_ne_nil hb T) (hwOf s) (afterDraw s)
    exact ⟨(afterDraw_frame s).trans hf.toTxFrame, by simpa using hp, hr⟩

end Sys2Proof.Machine
end

