-- ==== Sys2Proof/Laws/Step.lean ====
section
/-! SUPPORT. Everything one step can do: one inversion lemma for an operation, for the consumer's turn and for the step. -/

namespace Sys2Proof.Machine

/-- An operation that goes on either only answers, or queues one job, or runs the body of `transmit` on an idle
transmitter. -/
theorem exec_cases {i : Instr} {s t : State} (h : exec i s = .next t) :
    (∃ a, isQueued a = false ∧ t = answer a s) ∨
    (∃ job a, (i.op = .enqueue ∨ i.op = .enqueueTransmission) ∧ isQueued a = true ∧
      s.queue.length ≠ s.params.queueDepth ∧ t = answer a (setQueue (s.queue ++ [job]) s)) ∨
    (∃ job r, i = .transmit job ∧ s.txState = .idle ∧ transmitBody job (setTxState .busy s) = .ok r ∧
      t = answer (.tx r.2) (returnIdle r.1)) := by
  have pure (a : Answer) (ha : isQueued a = false) (h : (.next (answer a s) : Host.Outcome State Fault Refusal) = .next t) :
      ∃ a, isQueued a = false ∧ t = answer a s := by
    cases h; exact ⟨a, ha, rfl⟩
  cases i with
  | bchCheck p => exact .inl (pure _ rfl h)
  | parity32 w => exact .inl (pure _ rfl h)
  | cwEncode p => exact .inl (pure _ rfl h)
  | cwAddress c f => exact .inl (pure _ rfl h)
  | cwMessage c => exact .inl (pure _ rfl h)
  | textPack m => exact .inl (pure _ rfl h)
  | batchBuild c f m => exact .inl (pure _ rfl h)
  | idleAction m i => exact .inl (pure _ rfl h)
  | status => exact .inl (pure _ rfl h)
  | bitsAssemble b p i =>
    simp only [exec, execBitsAssemble] at h
    split at h
    · exact .inl (pure _ rfl h)
    · exact .inl (pure _ rfl h)
  | bitPeriod n =>
    simp only [exec, execBitPeriod] at h
    split at h
    · cases h
    · exact .inl (pure _ rfl h)
  | rleEncode b T =>
    simp only [exec, execRleEncode] at h
    split at h
    · cases h
    · exact .inl (pure _ rfl h)
  | lineAction m d b =>
    simp only [exec, execLineAction] at h
    split at h
    · cases h
    · exact .inl (pure _ rfl h)
  | transmit job =>
    simp only [exec, execTransmit] at h
    split at h
    · exact .inl (pure _ rfl h)
    · rename_i hb
      split at h
      · cases h
      · rename_i r hr
        cases h
        refine .inr (.inr ⟨job, r, rfl, ?_, hr, rfl⟩)
        cases hs : s.txState with
        | idle => rfl
        | busy => exact absurd hs hb
  | enqueue job =>
    simp only [exec, execEnqueue, enqueueJob, queueFull, decide_eq_true_eq] at h
    split at h
    · exact .inl (pure _ rfl h)
    · rename_i hq
      cases h
      exact .inr (.inl ⟨job, _, .inl rfl, rfl, hq, rfl⟩)
  | enqueueTransmission r =>
    simp only [exec, execEnqueueTransmission, enqueueJob, queueFull, decide_eq_true_eq] at h
    split at h
    · exact .inl (pure _ rfl h)
    · split at h
      · exact .inl (pure _ rfl h)
      · by_cases hq : s.queue.length = s.params.queueDepth
        · simp only [hq, if_true] at h
          exact .inl (pure _ rfl h)
        · simp only [hq, if_false] at h
          cases h
          exact .inr (.inl ⟨pageJob r, _, .inr rfl, rfl, hq, rfl⟩)

/-- The consumer's turn: blocked, a start, or a finish. -/
theorem consumerTurn_cases {s t : State} (h : consumerTurn s = .next t) :
    (s.phase = .waiting ∧ s.queue = [] ∧ t = s) ∨
    (∃ job rest, s.phase = .waiting ∧ s.queue = job :: rest ∧ t = consumerStart job rest s) ∨
    (∃ job r, s.phase = .transmitting job ∧ transmitBody job s = .ok r ∧
      t = notify (noteOf r.2) (setPhase .waiting (returnIdle r.1))) := by
  unfold consumerTurn at h
  split at h
  · rename_i job hp
    unfold consumerFinish at h
    split at h
    · cases h
    · rename_i r hr
      cases h
      exact .inr (.inr ⟨job, r, hp, hr, rfl⟩)
  · rename_i hp
    split at h
    · rename_i hq
      cases h
      exact .inl ⟨hp, hq, rfl⟩
    · rename_i job rest hq
      cases h
      exact .inr (.inl ⟨job, rest, hp, hq, rfl⟩)

/-- One step: the consumer's turn, an initialisation, an operation, or a request answered `Invalid`. -/
theorem step_cases {s t : State} (h : step s = .next t) :
    (s.inputs = [] ∧ consumerTurn s = .next t) ∨
    (∃ rest, s.inputs = .consumer :: rest ∧ consumerTurn (setInputs rest s) = .next t) ∨
    (∃ rest, s.inputs = .reset :: rest ∧ t = reinitCore (setInputs rest s)) ∨
    (∃ port bytes rest i, s.inputs = .request port bytes :: rest ∧ fetchRequest port bytes = .run i ∧
      exec i (setInputs rest s) = .next t) ∨
    (∃ port bytes rest, s.inputs = .request port bytes :: rest ∧ fetchRequest port bytes = .invalid ∧
      t = answer .invalid (setInputs rest s)) := by
  unfold step at h
  split at h
  · exact .inl ⟨‹_›, h⟩
  · exact .inr (.inl ⟨_, ‹_›, h⟩)
  · cases h
    exact .inr (.inr (.inl ⟨_, ‹_›, rfl⟩))
  · rename_i port bytes rest hi
    split at h
    · exact .inr (.inr (.inr (.inl ⟨port, bytes, rest, _, hi, ‹_›, h⟩)))
    · cases h
      exact .inr (.inr (.inr (.inr ⟨port, bytes, rest, hi, ‹_›, rfl⟩)))
    · cases h

/-- A request that is run decodes to the operation and is served by its port. -/
theorem fetchRequest_run {port : Port} {bytes : List Byte} {i : Instr} (h : fetchRequest port bytes = .run i) :
    portServes port i.op = true ∧ ∃ rest, decode bytes = .instr i rest := by
  unfold fetchRequest at h
  split at h
  · cases h
  · rename_i hd tl
    split at h
    · cases h
    · rename_i op ho
      split at h
      · rename_i hs
        split at h
        · rename_i j rest hd'
          cases h
          obtain ⟨hd2, tl2, he, ho2⟩ := decode_instr hd'
          cases he
          rw [ho] at ho2
          cases ho2
          exact ⟨hs, rest, hd'⟩
        · cases h
        · cases h
      · cases h

end Sys2Proof.Machine
end

