-- ==== Sys2Proof/Tests/Slice0.lean ====
section
/-! SUPPORT. Tests: refused ill-formed terms, requests written out from the encodings, one-step tests whose expected values
are the vectors of spec/95_test_vectors.md, and for every statement with hypotheses a witness that meets them. -/

namespace Sys2Proof.Tests

open Sys2Proof.Machine

set_option Elab.async false

/-! ### Helpers -/

/-- The next state, if there is one. -/
def view (o : Host.Outcome State Fault Refusal) : Option State :=
  match o with
  | .next t => some t
  | .fault _ => none
  | .refused _ => none

/-- Why a step was refused, if it was. -/
def refusal (o : Host.Outcome State Fault Refusal) : Option Refusal :=
  match o with
  | .next _ => none
  | .fault _ => none
  | .refused r => some r

/-- What one operation answers on a state. -/
def answersOn (s : State) (i : Instr) : Option (List Answer) := (view (exec i s)).map (·.answers)

/-- What one operation answers right after reset. -/
def answers (i : Instr) : Option (List Answer) := answersOn State.reset i

/-- An oracle value with everything `Ok`. -/
def hwOk : HwOutcome := ⟨.ok, .ok, .done, .ok, 0⟩

/-- A job on pin `gpio` at 1200 baud, push-pull, idle high. -/
def job (bits : Bits) (gpio : Gpio) : Job := ⟨bits, 1200, gpio, .pushPull, true, .driveOneLow⟩

/-- The page request of 95_test_vectors.md V94 with other operands as given. -/
def page (capcode : BitVec 32) (function : BitVec 8) (baud preambleBits : BitVec 16) : PageRequest :=
  ⟨capcode, function, [0x78#8], baud, false, true, .pushPull, 4#8, preambleBits⟩

/-- After reset, with what the pulse engine will answer. -/
def withHw (l : List HwOutcome) : State := { State.reset with hwAnswers := l }

/-- After reset, with a queue of depth 2 and the given jobs in it. -/
def depthTwo (q : List Job) : State := { State.reset with params := { Params.standard with queueDepth := 2 }, queue := q }

/-- A job is in flight and one is waiting; both were queued. -/
def inService : State := { State.reset with
  txState := .busy
  phase := .transmitting (job [true] 4#8)
  queue := [job [false] 5#8]
  answers := [.enqueue .queued, .enqueue .queued]
  hwAnswers := [hwOk, hwOk] }

/-! ### Well-formedness refuses what the request format cannot carry -/

theorem test_wellFormed_message_too_long : (Instr.textPack (List.replicate 65536 0#8)).wellFormed = false := by
  simp only [Instr.wellFormed, messageFits, List.length_replicate, Nat.reducePow, lt_irrefl, decide_false]
theorem test_wellFormed_page_message_too_long :
    (Instr.enqueueTransmission { page 8#32 0#8 1200#16 0#16 with message := List.replicate 65536 0#8 }).wellFormed = false := by
  simp only [Instr.wellFormed, messageFits, List.length_replicate, Nat.reducePow, lt_irrefl, decide_false]
theorem test_wellFormed_short_batch : (Instr.bitsAssemble [List.replicate 15 0#32] 0#16 false).wellFormed = false := by decide
theorem test_wellFormed_too_many_batches :
    (Instr.bitsAssemble (List.replicate 65536 (List.replicate 16 0#32)) 0#16 false).wellFormed = false := by
  simp only [Instr.wellFormed, batchesFit, List.length_replicate, Nat.reducePow, lt_irrefl, decide_false, Bool.false_and]
theorem test_wellFormed_wide_natural : (Instr.bitPeriod (2 ^ 255)).wellFormed = false := by decide +kernel
theorem test_wellFormed_long_bits : (Instr.rleEncode (List.replicate (2 ^ 32) true) 1).wellFormed = false := by
  simp only [Instr.wellFormed, bitsFit, List.length_replicate, lt_irrefl, decide_false, Bool.false_and]
theorem test_wellFormed_other_polarity : (Instr.lineAction .openDrain (.other 2) true).wellFormed = false := by decide
theorem test_wellFormed_job_polarity :
    (Instr.transmit { job [true] 4#8 with drive := .other 0 }).wellFormed = false := by decide

/-! ### Decoding: a request of every operation, its bits written out from 30_encoding.md R95 to R101 -/

/-- The instruction a request decodes to, and the bits left over. -/
def decoded (bytes : List Byte) : Option (Instr × Nat) :=
  match decode bytes with
  | .instr i rest => some (i, rest.length)
  | .reservedOp _ => none
  | .incomplete => none

-- 0001 1001 0000 0000 0000 0, left-adjusted: the 21 bits of 0x032000.
theorem test_decode_bchCheck : decoded [0x01#8, 0x19#8, 0x00#8, 0x00#8] = some (.bchCheck 0x032000#21, 3) := by decide
theorem test_decode_parity32 : decoded [0x02#8, 0x80#8, 0x00#8, 0x00#8, 0x01#8] = some (.parity32 0x80000001#32, 0) := by decide
theorem test_decode_cwEncode : decoded [0x03#8, 0xC8#8, 0x00#8, 0x00#8] = some (.cwEncode 0x190000#21, 3) := by decide
theorem test_decode_cwAddress : decoded [0x04#8, 0x00#8, 0x15#8, 0xB6#8, 0x2A#8, 0x02#8] =
    some (.cwAddress 1422890#32 2#8, 0) := by decide
-- 1001 0000 0000 0000 0000: the 20 bits of 0x90000.
theorem test_decode_cwMessage : decoded [0x05#8, 0x90#8, 0x00#8, 0x00#8] = some (.cwMessage 0x90000#20, 4) := by decide
theorem test_decode_textPack : decoded [0x06#8, 0x00#8, 0x02#8, 0x48#8, 0x69#8] = some (.textPack [0x48#8, 0x69#8], 0) := by decide
theorem test_decode_batchBuild : decoded [0x07#8, 0x00#8, 0x00#8, 0x00#8, 0x09#8, 0x03#8, 0x00#8, 0x01#8, 0x58#8] =
    some (.batchBuild 9#32 3#8 [0x58#8], 0) := by decide
-- no batch, five preamble bits, inverted: 16 zeros, 16 bits of 5, one 1.
theorem test_decode_bitsAssemble : decoded [0x08#8, 0x00#8, 0x00#8, 0x00#8, 0x05#8, 0x80#8] = some (.bitsAssemble [] 5#16 true, 7) := by decide
-- eleven digits (0000 1011), then 100 1011 0000.
theorem test_decode_bitPeriod : decoded [0x09#8, 0x0B#8, 0x96#8, 0x00#8] = some (.bitPeriod 1200, 5) := by decide
-- four bits 1001; three digits (0000 0011), then 101.
theorem test_decode_rleEncode : decoded [0x0A#8, 0x00#8, 0x00#8, 0x00#8, 0x04#8, 0x90#8, 0x3A#8] =
    some (.rleEncode [true, false, false, true] 5, 1) := by decide
-- open-drain 1, driveOneLow 0, bit 1.
theorem test_decode_lineAction : decoded [0x0B#8, 0xA0#8] = some (.lineAction .openDrain .driveOneLow true, 5) := by decide
theorem test_decode_lineAction_other : decoded [0x0B#8, 0x40#8] = some (.lineAction .pushPull (.other 1) false, 5) := by decide
theorem test_decode_idleAction : decoded [0x0C#8, 0x40#8] = some (.idleAction .pushPull true, 6) := by decide
-- one bit 1; eleven digits of 1200; gpio 4; push-pull 0, idleHigh 1, driveOneLow 0.
theorem test_decode_transmit : decoded [0x0D#8, 0x00#8, 0x00#8, 0x00#8, 0x01#8, 0x85#8, 0xCB#8, 0x00#8, 0x44#8] =
    some (.transmit (job [true] 4#8), 1) := by decide
-- no bit; no digit (baud 0); gpio 5; open-drain 1, idleHigh 0, Other(1) 1.
theorem test_decode_enqueue : decoded [0x0E#8, 0x00#8, 0x00#8, 0x00#8, 0x00#8, 0x00#8, 0x05#8, 0xA0#8] =
    some (.enqueue ⟨[], 0, 5#8, .openDrain, false, .other 1⟩, 5) := by decide
-- P3: capcode 8, function 0, no message, baud 0x0200, invert 0, idleHigh 1, open-drain 1, gpio 5, preamble 8.
theorem test_decode_enqueueTransmission :
    decoded [0x10#8, 0x00#8, 0x00#8, 0x00#8, 0x08#8, 0x00#8, 0x00#8, 0x00#8, 0x02#8, 0x00#8, 0x60#8, 0xA0#8, 0x01#8, 0x00#8] =
      some (.enqueueTransmission ⟨8#32, 0#8, [], 512#16, false, true, .openDrain, 5#8, 8#16⟩, 5) := by decide
theorem test_decode_status : decoded [0x11#8] = some (.status, 0) := by decide
/-- R102, V100: the reserved identifiers. -/
theorem test_decode_reserved :
    [0x00#8, 0x0F#8, 0x12#8, 0xFF#8].all (fun h => decode [h] == .reservedOp h) = true := by decide
/-- The words of spec/opcode_table.json. -/
theorem test_decodeTableWord :
    (decodeTableWord 8 0x01, decodeTableWord 8 0x11, decodeTableWord 8 0x0F) =
      (some (.bchCheck 0#21), some .status, none) := by decide +kernel

/-! ### The Codeword Encoder (vectors V1 to V29b) -/

theorem test_bchCheck_single : answers (.bchCheck 1#21) = some [.check 0x369#10] := by decide +kernel
theorem test_bchCheck_h : answers (.bchCheck 0x190000#21) = some [.check 0x38F#10] := by decide +kernel
theorem test_parity32_odd : answers (.parity32 0x56D8B52E#32) = some [.parity true] := by decide +kernel
theorem test_parity32_even : answers (.parity32 0xC800071E#32) = some [.parity false] := by decide +kernel
theorem test_cwEncode_sync : answers (.cwEncode 0x0F9A42#21) = some [.codeword 0x7CD215D8#32] := by decide +kernel
theorem test_cwEncode_alternating : answers (.cwEncode 0x155555#21) = some [.codeword 0xAAAAAF1B#32] := by decide +kernel
theorem test_cwAddress_e1 : answers (.cwAddress 1422890#32 2#8) = some [.codeword 0x56D8B52F#32] := by decide +kernel
theorem test_cwAddress_high_bits_dropped :
    (answers (.cwAddress 2097161#32 1#8), answers (.cwAddress 8#32 255#8)) =
      (some [.codeword 0x0000283F#32], some [.codeword 0x00003B49#32]) := by decide +kernel
theorem test_cwMessage_zero : answers (.cwMessage 0#20) = some [.codeword 0x80000769#32] := by decide +kernel
theorem test_cwMessage_x : answers (.cwMessage 0xB0000#20) = some [.codeword 0xD800009A#32] := by decide +kernel

/-! ### The Batch Builder (V30 to V48) -/

theorem test_textPack_abc : answers (.textPack [0x41#8, 0x42#8, 0x43#8]) = some [.chunks [0x830A1#20, 0x80000#20]] := by decide +kernel
theorem test_textPack_empty_and_bit7 :
    (answers (.textPack []), answers (.textPack [0xFF#8, 0x80#8])) = (some [.chunks [0#20]], some [.chunks [0xFE000#20]]) := by decide +kernel
/-- V42: "0123456789". -/
def digits : List Byte := [0x30#8, 0x31#8, 0x32#8, 0x33#8, 0x34#8, 0x35#8, 0x36#8, 0x37#8, 0x38#8, 0x39#8]
theorem test_batchBuild_frame7 : answers (.batchBuild 15#32 1#8 digits) = some [.batches
    [List.replicate 14 Config.idle ++ [0x0000283F#32, 0xB062CD3D#32],
     [0x99B46D4A#32, 0xAD9BBC89#32, 0x872002E8#32] ++ List.replicate 13 Config.idle] false] := by decide +kernel
/-- V46, V47: exact capacity, and one chunk too many. -/
theorem test_batchBuild_capacity :
    ((batchBuild 8#32 0#8 (List.replicate 454 0x41#8)).2, (batchBuild 8#32 0#8 (List.replicate 455 0x41#8)).2,
      (batchBuild 8#32 0#8 (List.replicate 455 0x41#8)).1.length) = (false, true, 10) := by decide +kernel

/-! ### The Bitstream Assembler (V51, V52, V56, V58) -/

theorem test_bitsAssemble_preamble_only :
    answers (.bitsAssemble [] 5#16 true) = some [.bits [true, false, true, false, true]] := by decide +kernel
theorem test_bitsAssemble_allocFail :
    (answers (.bitsAssemble [] 4097#16 false), lineWord true Config.sync) = (some [.allocFail], 0x832DEA27#32) := by decide +kernel

/-! ### The Waveform Transmitter, pure operations (V60 to V75) -/

theorem test_bitPeriod_rounds :
    (answers (.bitPeriod 1200), answers (.bitPeriod 128)) = (some [.period 833], some [.period 7813]) := by decide +kernel
theorem test_bitPeriod_refused :
    (refusal (exec (.bitPeriod 0) State.reset), refusal (exec (.bitPeriod 2000001) State.reset)) =
      (some (.noBitPeriod 0), some (.noBitPeriod 2000001)) := by decide +kernel
theorem test_rleEncode_runs :
    answers (.rleEncode [true, false, false, true] 833) = some [.descs [⟨true, 833⟩, ⟨false, 1666⟩, ⟨true, 833⟩]] := by decide +kernel
theorem test_rleEncode_split :
    (answers (.rleEncode [true, true] 32767), answers (.rleEncode [true] 33333)) =
      (some [.descs [⟨true, 32767⟩, ⟨true, 32767⟩]], some [.descs [⟨true, 32767⟩, ⟨true, 566⟩]]) := by decide +kernel
theorem test_lineAction_rows :
    (answers (.lineAction .openDrain .driveOneLow true), answers (.lineAction .pushPull (.other 1) false)) =
      (some [.pinState .hiZ], some [.pinState .driveLow]) := by decide +kernel
theorem test_lineAction_refused :
    refusal (exec (.lineAction .openDrain (.other 1) false) State.reset) = some .openDrainPolarity := by decide +kernel
theorem test_idleAction_default :
    (answers (.idleAction .openDrain true), answers (.idleAction .pushPull true)) =
      (some [.pinState .driveHigh], some [.pinState .hiZ]) := by decide +kernel

/-! ### TRANSMIT (V80, V84) -/

theorem test_transmit_v80 : view (exec (.transmit (job [true, false, false, true] 4#8)) (withHw [hwOk])) =
    some { State.reset with
      lastCfg := some ⟨4#8, .pushPull, true⟩
      wave := [.set 4#8 .driveHigh, .pulse 4#8 .driveHigh 833, .pulse 4#8 .driveLow 1666, .pulse 4#8 .driveHigh 833, .set 4#8 .hiZ]
      answers := [.tx .ok] } := by decide +kernel
theorem test_transmit_v84 :
    view (exec (.transmit (job [true, false] 4#8)) (withHw [⟨.ok, .ok, .timeout, .fail, 1⟩])) =
    some { State.reset with
      wave := [.set 4#8 .driveHigh, .pulse 4#8 .driveHigh 833, .partialPulse 4#8, .set 4#8 .hiZ]
      answers := [.tx (.fail .timeout)] } := by decide +kernel

/-! ### The Scheduler and the ports (V90 to V101) -/

theorem test_enqueue_full : answersOn (depthTwo [job [] 1#8, job [] 2#8]) (.enqueue (job [] 3#8)) = some [.enqueue .busy] := by decide +kernel
theorem test_enqueue_room : (view (exec (.enqueue (job [] 3#8)) (depthTwo [job [] 1#8]))).map (·.queue) =
    some [job [] 1#8, job [] 3#8] := by decide +kernel
theorem test_enqueueTransmission_order :
    (answers (.enqueueTransmission (page 0#32 0#8 1200#16 4097#16)), answers (.enqueueTransmission (page 8#32 0#8 1200#16 4097#16))) =
      (some [.page .invalid false], some [.page .allocFail false]) := by decide +kernel
/-- V90: one job of 1120 bits is queued. -/
theorem test_enqueueTransmission_queued :
    (view (exec (.enqueueTransmission ⟨1422890#32, 2#8, [0x48#8], 1200#16, false, true, .pushPull, 4#8, 576#16⟩) State.reset)).map
      (fun t => (t.queue.map (·.bits.length), t.txState, t.answers)) = some ([1120], .idle, [.page .queued false]) := by decide +kernel
theorem test_status_busy : answersOn inService .status = some [.enqueue .queued, .enqueue .queued, .status .busy] := by decide +kernel
/-- V101. -/
theorem test_consumer_start : (view (step (depthTwo [job [] 1#8, job [] 2#8]))).map (fun t => (t.queue, t.phase, t.txState)) =
    some ([job [] 2#8], .transmitting (job [] 1#8), .busy) := by decide +kernel
theorem test_consumer_finish : (view (step inService)).map (fun t => (t.notes, t.phase, t.txState, t.queue.length)) =
    some ([.txDone], .waiting, .idle, 1) := by decide +kernel
/-- A table word runs as the first request after reset. -/
theorem test_withFetchWord_status :
    (view (step (State.reset.withFetchWord 8 0x11))).map (·.answers) = some [.status .idle] := by decide +kernel

/-! ### Witnesses: every statement with hypotheses has a state and operands that meet them -/

theorem next_of_view {o : Host.Outcome State Fault Refusal} (h : (view o).isSome = true) : ∃ t, o = .next t := by
  cases o with
  | next t => exact ⟨t, rfl⟩
  | fault r => cases r
  | refused r => cases h

/-- After reset, with inputs. -/
def withInputs (l : List Input) : State := { State.reset with inputs := l }

/-- A page whose operands are all legal. -/
def goodPage : PageRequest := page 8#32 0#8 1200#16 0#16

/-- A second pin is configured and another pin is held at an idle level. -/
def configured : State := { State.reset with
  lastCfg := some ⟨5#8, .openDrain, true⟩
  pin := [(5, .driveHigh)]
  wave := [.set 5#8 .driveHigh] }

theorem inService_inv : CoreInv inService :=
  ⟨by decide, by decide, by simp [inService], rfl, by simp [inService, State.reset], by simp [inService, State.reset],
    by simp [inService, State.reset], by unfold Accounted; decide, fun _ => rfl⟩

theorem configured_inv : CoreInv configured :=
  ⟨by decide, by decide, by simp [configured, State.reset], by decide,
    by intro e he; cases List.mem_singleton.1 he; exact ⟨.openDrain, true, rfl⟩,
    by intro e he; cases List.mem_singleton.1 he; decide, by intro c hc; cases hc; decide, by unfold Accounted; decide,
    fun p => rfl⟩

/-- Both a consumer's step and an operation go on from states that meet the invariant, and so does an initialisation. -/
theorem witness_EveryStepKeepsInvariant :
    (CoreInv inService ∧ ∃ t, step inService = .next t) ∧
    (CoreInv { configured with hwAnswers := [hwOk] } ∧
      ∃ t, exec (.transmit (job [true] 4#8)) { configured with hwAnswers := [hwOk] } = .next t) :=
  ⟨⟨inService_inv, next_of_view (by decide +kernel)⟩,
    ⟨configured_inv.1, configured_inv.2, configured_inv.3, configured_inv.4, configured_inv.5, configured_inv.6,
      configured_inv.7, configured_inv.8, configured_inv.9⟩, next_of_view (by decide +kernel)⟩

theorem witness_StepRunsTheDecodedRequest :
    (withInputs [.request .external [0x11#8], .consumer]).inputs = .request .external [0x11#8] :: [.consumer] ∧
    decode [0x11#8] = .instr .status [] ∧ portServes .external Instr.status.op = true ∧
    decode [0x0C#8, 0x40#8] = .instr (.idleAction .pushPull true) (List.replicate 6 false) ∧
    portServes .component (Instr.idleAction .pushPull true).op = true := by decide +kernel

theorem witness_StepGivesTheConsumerItsTurn :
    inService.inputs = [] ∧ { inService with inputs := [.consumer, .reset] }.inputs = .consumer :: [Input.reset] := ⟨rfl, rfl⟩

theorem witness_InitialisationDiscardsJobs :
    { inService with inputs := [.reset, .consumer] }.inputs = .reset :: [Input.consumer] := rfl

/-- The longest message is one of the requests the format can carry; so is every form of a job. -/
theorem witness_DecodeOfEncodeIsTheRequest :
    (Instr.textPack (List.replicate 65535 0#8)).wellFormed = true ∧
    (Instr.transmit ⟨[true], 0, 255#8, .openDrain, true, .other 1⟩).wellFormed = true := by
  refine ⟨?_, by decide⟩
  simp only [Instr.wellFormed, messageFits, List.length_replicate, Nat.reducePow, Nat.reduceLT, decide_true]

/-- Every clause at the ends of its range: 0x00, 0x0F, 0x12, 0xFF anywhere, 0x01 and 0x0E at the external port. -/
theorem witness_ReservedAndMisplacedOpsAnswerInvalid :
    [(Port.external, 0x00#8), (.component, 0x0F#8), (.component, 0x12#8), (.external, 0xFF#8), (.external, 0x01#8),
      (.external, 0x0E#8)].all (fun c => decide (c.2 = 0x00#8 ∨ c.2 = 0x0F#8 ∨ 0x12#8 ≤ c.2 ∨
        (c.1 = .external ∧ 0x01#8 ≤ c.2 ∧ c.2 ≤ 0x0E#8)) &&
        (view (step (withInputs [.request c.1 [c.2]]))).map (·.answers) == some [.invalid]) = true := by decide +kernel

/-- The header missing, and the last byte missing. -/
theorem witness_IncompleteRequestIsRefused :
    (Instr.parity32 1#32).wellFormed = true ∧ portServes .component (Instr.parity32 1#32).op = true ∧
    0 < (encode (.parity32 1#32)).length ∧ 4 < (encode (.parity32 1#32)).length ∧
    refusal (step (withInputs [.request .component ((encode (.parity32 1#32)).take 4)])) = some .incompleteRequest := by
  decide +kernel

/-- A remainder as the uniqueness clause asks for: `x^10 + GEN` for the payload 1. -/
theorem witness_BchCheckAnswersTheRemainder : divisibleByGen (((1#21).setWidth 31 <<< 10) ^^^ (0x369#10).setWidth 31) :=
  ⟨1#21, by decide +kernel⟩

theorem witness_ParityIsTheXorOfAllBits :
    answers (.cwEncode 0x0ADB16#21) = some [.codeword 0x56D8B52F#32] ∧ (0x56D8B52E#32).getLsbD 0 = false := by decide +kernel

theorem witness_CodewordStructuralInvariant : answers (.cwEncode 0x1FFFFF#21) = some [.codeword 0xFFFFFFFF#32] := by
  decide +kernel

theorem witness_SentinelsAreCodewordsButNoMessages : answers (.cwMessage 0xFFFFF#20) = some [.codeword 0xFFFFFFFF#32] := by
  decide +kernel

/-- Two capcodes that alias (V25) and two that do not. -/
theorem witness_CapcodesAliasExactlyByAddressAndFunction :
    ((15#32).extractLsb' 3 18 = (2097161#32).extractLsb' 3 18 ∧ (1#8).extractLsb' 0 2 = (5#8).extractLsb' 0 2) ∧
    answers (.cwAddress 15#32 1#8) = answers (.cwAddress 2097161#32 5#8) ∧
    answers (.cwAddress 15#32 1#8) ≠ answers (.cwAddress 16#32 1#8) := by decide +kernel

/-- A bit of the message, and a bit of the padding, of "H". -/
theorem witness_TextPackPlacesEveryBit :
    answers (.textPack [0x48#8]) = some [.chunks [0x90000#20]] ∧ 0 < [0x90000#20].length ∧ 20 * 0 + 6 < 7 * 1 ∧
    ¬ 20 * 0 + 7 < 7 * 1 := by decide +kernel

/-- Slots before, at and after the address codeword and past the message, of V42. -/
theorem witness_BatchBuildPlacement :
    (batchBuild 15#32 1#8 digits).1.length = 2 ∧ 13 < 16 * 2 ∧ 14 < 16 * 2 ∧ 15 < 16 * 2 ∧ 31 < 16 * 2 := by decide +kernel

theorem witness_PreambleAlternatesFromOne :
    (4096#16).toNat ≤ State.reset.params.preambleMax ∧ (0#16).toNat ≤ State.reset.params.preambleMax ∧
    (5#16).toNat ≤ State.reset.params.preambleMax ∧ (5#16).toNat % 2 = 1 := by decide

theorem witness_BitsAssembleStreamIndex :
    State.reset.params.preambleMax < (4097#16).toNat ∧ (4096#16).toNat ≤ State.reset.params.preambleMax ∧
    ∀ b ∈ [idleBatch, firstBatch 8#32 0#8], b.length = 16 := by decide +kernel

theorem witness_InversionComplementsTheWordsOnly : (4096#16).toNat ≤ State.reset.params.preambleMax := by decide

theorem witness_BitPeriodRoundsToNearest :
    answers (.bitPeriod 1) = some [.period 1000000] ∧ answers (.bitPeriod 2000000) = some [.period 1] ∧
    (0 = 0 ∨ 2000000 < 0) ∧ (2000001 = 0 ∨ 2000000 < 2000001) := by decide +kernel

theorem witness_RleEncodeExpandsToTheWaveform :
    1 ≤ 1 ∧ answers (.rleEncode [true, true, false] 1) = some [.descs [⟨true, 2⟩, ⟨false, 1⟩]] := by decide +kernel

theorem witness_RleEncodeOfPeriodZero :
    answers (.rleEncode [] 0) = some [.descs []] ∧ [true] ≠ [] ∧
    refusal (exec (.rleEncode [true] 0) State.reset) = some .zeroPeriod := by decide +kernel

/-- A new configuration, and one that is already there on a pin that does not exist (V89 has the first form). -/
theorem witness_TransmitPlaysTheWholeWaveform :
    (withHw [hwOk]).txState = .idle ∧ (job [true] 4#8).bits ≠ [] ∧ (job [true] 4#8).mode ≠ .openDrain ∧
    1 ≤ (job [true] 4#8).baud ∧ (job [true] 4#8).baud ≤ 2000000 ∧
    (withHw [hwOk]).params.gpioPins.contains (job [true] 4#8).gpio.toNat = true ∧ (hwOf (withHw [hwOk])).cfg = .ok ∧
    (hwOf (withHw [hwOk])).write = .ok ∧ (hwOf (withHw [hwOk])).wait = .done ∧
    { withHw [hwOk] with lastCfg := some ⟨4#8, .pushPull, true⟩ }.lastCfg = some ⟨4#8, .pushPull, true⟩ := by decide

/-- V85: a pin that does not exist; V86: a failing configuration. -/
theorem witness_TransmitConfigurationFailure :
    (withHw [hwOk]).txState = .idle ∧ (job [true] 200#8).bits ≠ [] ∧ (withHw [hwOk]).lastCfg ≠ some ⟨200#8, .pushPull, true⟩ ∧
    (withHw [hwOk]).params.gpioPins.contains (job [true] 200#8).gpio.toNat = false ∧
    (withHw [hwOk]).params.gpioPins.contains (job [true] 4#8).gpio.toNat = true ∧
    (hwOf (withHw [⟨.fail, .ok, .done, .ok, 0⟩])).cfg = .fail ∧
    answersOn (withHw [hwOk]) (.transmit (job [true] 200#8)) = some [.tx (.fail .configFail)] ∧
    (view (exec (.transmit (job [true] 4#8)) (withHw [⟨.fail, .ok, .done, .ok, 0⟩]))).map (fun t => (t.wave, t.lastCfg)) =
      some ([.set 4#8 .hiZ], some ⟨4#8, .pushPull, true⟩) := by decide +kernel

/-- V83's oracle and V84's, on a configured peripheral. -/
theorem witness_TransmitWriteFailureOrTimeout :
    configured.txState = .idle ∧ (job [true] 5#8).bits ≠ [] ∧
    configured.params.gpioPins.contains (job [true] 5#8).gpio.toNat = true ∧
    (hwOf { configured with hwAnswers := [⟨.ok, .fail, .done, .ok, 0⟩] }).cfg = .ok ∧
    (hwOf { configured with hwAnswers := [⟨.ok, .fail, .done, .ok, 0⟩] }).write = .fail ∧
    (hwOf { configured with hwAnswers := [⟨.ok, .ok, .timeout, .fail, 1⟩] }).write = .ok ∧
    (hwOf { configured with hwAnswers := [⟨.ok, .ok, .timeout, .fail, 1⟩] }).wait = .timeout ∧
    (view (exec (.transmit ⟨[true], 512, 5#8, .openDrain, false, .driveOneLow⟩)
      { configured with hwAnswers := [⟨.ok, .fail, .done, .ok, 0⟩] })).map (·.wave) =
      some [.set 5#8 .driveHigh, .set 5#8 .hiZ, .partialPulse 5#8, .set 5#8 .hiZ] := by decide +kernel

theorem witness_EmptyTransmitReassertsIdle :
    State.reset.txState = .idle ∧ (job [] 4#8).bits = [] ∧ State.reset.params.gpioPins.contains (job [] 4#8).gpio.toNat = true ∧
    State.reset.params.gpioPins.contains (job [] 200#8).gpio.toNat = false := by decide

theorem witness_TransmitWhileBusyIsRejected :
    inService.txState = .busy ∧ (∃ t, consumerTurn inService = .next t) ∧
    (∃ t, consumerTurn (depthTwo [job [] 1#8]) = .next t) :=
  ⟨rfl, next_of_view (by decide +kernel), next_of_view (by decide +kernel)⟩

/-- The missing row of the truth table; bauds 0 and 2000001. -/
theorem witness_UndefinedJobsAreRefused :
    refusal (exec (.transmit ⟨[true], 1200, 4#8, .openDrain, true, .other 1⟩) State.reset) = some .openDrainPolarity ∧
    refusal (exec (.transmit ⟨[true], 0, 4#8, .openDrain, true, .driveOneLow⟩) State.reset) = some (.noBitPeriod 0) ∧
    refusal (step { inService with phase := .transmitting ⟨[true], 2000001, 4#8, .pushPull, true, .other 1⟩ }) =
      some (.noBitPeriod 2000001) ∧
    refusal (step { inService with phase := .transmitting ⟨[true], 1200, 4#8, .openDrain, true, .other 1⟩ }) =
      some .openDrainPolarity := by decide +kernel

theorem witness_EveryTransmitForcesIdle :
    configured.params.gpioPins.contains (job [true] 4#8).gpio.toNat = true ∧ configured.txState = .idle ∧
    (∃ t, exec (.transmit (job [true] 4#8)) { configured with hwAnswers := [hwOk] } = .next t) ∧
    inService.phase = .transmitting (job [true] 4#8) ∧ ∃ t, consumerTurn inService = .next t :=
  ⟨by decide, rfl, next_of_view (by decide +kernel), rfl, next_of_view (by decide +kernel)⟩

theorem witness_MatchingConfigurationIsNotRedone :
    { withHw [hwOk] with lastCfg := some ⟨4#8, .pushPull, true⟩ }.txState = .idle ∧
    { withHw [hwOk] with lastCfg := some ⟨4#8, .pushPull, true⟩ }.hwAnswers = hwOk :: [] ∧
    { withHw [hwOk] with lastCfg := some ⟨4#8, .pushPull, true⟩ }.lastCfg =
      some ⟨(job [true] 4#8).gpio, (job [true] 4#8).mode, (job [true] 4#8).idleHigh⟩ ∧
    (job [true] 4#8).bits ≠ [] := by decide

theorem witness_WatchdogExceedsTheWaveform :
    1 ≤ 833 ∧ exec (.rleEncode [true] 833) State.reset =
      .next { State.reset with answers := State.reset.answers ++ [.descs [⟨true, 833⟩]] } := ⟨by decide, rfl⟩

theorem witness_EnqueueAppendsOrAnswersBusy :
    (depthTwo [job [] 1#8, job [] 2#8]).queue.length = (depthTwo [job [] 1#8, job [] 2#8]).params.queueDepth ∧
    (depthTwo [job [] 1#8]).queue.length ≠ (depthTwo [job [] 1#8]).params.queueDepth ∧
    (depthTwo [job [] 1#8, job [] 2#8]).queue = [job [] 1#8, job [] 2#8] := by decide

/-- Every illegal operand just outside its range; the legal page at both ends of the preamble; a full queue. -/
theorem witness_EnqueueTransmissionResults :
    outsideLegalValues State.reset.params (page 0#32 0#8 1200#16 0#16) ∧
    outsideLegalValues State.reset.params (page 8#32 4#8 1200#16 0#16) ∧
    outsideLegalValues State.reset.params (page 8#32 3#8 9600#16 0#16) ∧
    outsideLegalValues { Params.standard with msgCap := 0 } goodPage ∧
    ¬ outsideLegalValues State.reset.params (page 1#32 3#8 512#16 4097#16) ∧
    State.reset.params.preambleMax < (page 1#32 3#8 512#16 4097#16).preambleBits.toNat ∧
    ¬ outsideLegalValues (depthTwo [job [] 1#8, job [] 2#8]).params (page 0xFFFFFFFF#32 0#8 2400#16 4096#16) ∧
    (page 0xFFFFFFFF#32 0#8 2400#16 4096#16).preambleBits.toNat ≤ State.reset.params.preambleMax ∧
    (depthTwo [job [] 1#8, job [] 2#8]).queue.length = (depthTwo [job [] 1#8, job [] 2#8]).params.queueDepth ∧
    State.reset.queue.length ≠ State.reset.params.queueDepth := by unfold outsideLegalValues; decide

theorem witness_QueuedPagesArePlayable :
    exec (.enqueueTransmission goodPage) State.reset = .next { State.reset with
      queue := State.reset.queue ++ [pageJob goodPage], answers := [.page .queued false] } := by
  have h : pageTruncated goodPage = false := by decide +kernel
  rw [← h]
  rfl

theorem witness_StatusReportsTheTransmitterState :
    { depthTwo [job [] 1#8] with inputs := [.consumer, .request .external [0x11#8]] }.phase = .waiting ∧
    { depthTwo [job [] 1#8] with inputs := [.consumer, .request .external [0x11#8]] }.queue = job [] 1#8 :: [] := ⟨rfl, rfl⟩

theorem witness_ConsumerBlocksOnTheEmptyQueue :
    State.reset.phase = .waiting ∧ State.reset.queue = [] ∧ State.reset.queue.length ≠ State.reset.params.queueDepth := by decide

theorem witness_ConsumerStartDequeuesTheHead :
    (depthTwo [job [] 1#8, job [] 2#8]).phase = .waiting ∧
    (depthTwo [job [] 1#8, job [] 2#8]).queue = [job [] 1#8, job [] 2#8] ∧
    (depthTwo [job [] 1#8, job [] 2#8]).queue.length = (depthTwo [job [] 1#8, job [] 2#8]).params.queueDepth ∧
    inService.phase = .transmitting (job [true] 4#8) ∧ ∃ t, consumerTurn inService = .next t :=
  ⟨rfl, rfl, rfl, rfl, next_of_view (by decide +kernel)⟩

/-- A playable job at each end of the baud range, and an empty one with no baud at all. -/
theorem witness_ConsumerFinishTransmitsAndNotifies :
    inService.phase = .transmitting (job [true] 4#8) ∧ inService.inputs = [] ∧ playable (job [true] 4#8) ∧
    playable ⟨[true], 1, 4#8, .openDrain, true, .driveOneLow⟩ ∧ playable ⟨[true], 2000000, 4#8, .pushPull, true, .other 1⟩ ∧
    playable ⟨[], 0, 200#8, .openDrain, true, .other 1⟩ := by unfold playable; decide

theorem witness_PureOperationsOnlyAnswer :
    (Instr.idleAction .openDrain true).op ∉ [Op.transmit, .enqueue, .enqueueTransmission, .status] ∧
    ∃ t, exec (.idleAction .openDrain true) State.reset = .next t := ⟨by decide, _, rfl⟩

theorem witness_ProducersTouchOnlyTheTailOfTheQueue :
    (∃ t, step (withInputs [.request .external (encode (.enqueueTransmission goodPage))]) = .next t) ∧
    ∃ t, step (withInputs [.request .external [0x00#8]]) = .next t :=
  ⟨next_of_view (by decide +kernel), next_of_view (by decide +kernel)⟩

/-- Steps of each kind: blocked, a queued page, a start, an initialisation. -/
theorem witness_QueueIsFirstInFirstOut :
    (∃ t, step State.reset = .next t) ∧
    (∃ t, step (withInputs [.request .external (encode (.enqueueTransmission goodPage))]) = .next t) ∧
    (∃ t, step (depthTwo [job [] 1#8]) = .next t) ∧ ∃ t, step { inService with inputs := [.reset] } = .next t :=
  ⟨⟨_, rfl⟩, next_of_view (by decide +kernel), next_of_view (by decide +kernel), next_of_view (by decide +kernel)⟩

theorem witness_StreamsOnlyGrow : (∃ t, step inService = .next t) ∧ ∀ rest, inService.inputs ≠ .reset :: rest :=
  ⟨next_of_view (by decide +kernel), fun _ h => by cases h⟩

theorem witness_EveryQueuedJobIsAccountedFor : Accounted inService ∧ ∃ t, step inService = .next t :=
  ⟨inService_inv.accounted, next_of_view (by decide +kernel)⟩

theorem witness_NoPinIsLeftPulledLow :
    (∀ mode idleHigh, idlePolicy { configured with hwAnswers := [hwOk] }.params.idlePolicy mode idleHigh ≠ .driveLow) ∧
    (∀ c, configured.lastCfg = some c → configured.params.gpioPins.contains c.pin.toNat = true) ∧
    (∀ p, pinRead configured.pin p ≠ .driveLow) ∧
    ∃ t, step { configured with queue := [job [false] 4#8] } = .next t := by
  refine ⟨by intro m h; cases m <;> cases h <;> decide, configured_inv.cfgExists, fun p => ?_, next_of_view (by decide +kernel)⟩
  by_cases h : 5 = p <;> simp [configured, pinRead, h]

theorem witness_QueueDrainsToQuiescence :
    inService.inputs = [] ∧ (∀ j ∈ inService.queue, playable j) ∧ ∀ j, inService.phase = .transmitting j → playable j := by
  refine ⟨rfl, fun j hj => ?_, fun j hj => ?_⟩
  · cases List.mem_singleton.1 hj; unfold playable; decide
  · cases hj; unfold playable; decide

end Sys2Proof.Tests
end

section
/-! PROOF. The fields of an address codeword (spec/30_encoding.md R81, R83, R84): where `CW_ENCODE` puts the payload, and
what an address payload is made of. -/

namespace Sys2Proof.Machine

/-! ### Where a codeword holds its payload (R81) -/

/-- Payload bit `i` is codeword bit `11 + i`: the check and the parity bit lie below (R81). -/
theorem getLsbD_cwEncode_payload (p : Payload) {i : Nat} (hi : i < 21) :
    (cwEncode p).getLsbD (11 + i) = p.getLsbD i := by
  have hword : 11 + i < 32 := by omega
  simp [cwEncode, cwBody, hword]

/-- A field of the payload stands 11 bits higher in the codeword (R81). -/
theorem extractLsb'_cwEncode_payload (p : Payload) {start len : Nat} (h : start + len ≤ 21) :
    (cwEncode p).extractLsb' (11 + start) len = p.extractLsb' start len := by
  ext i hi
  rw [BitVec.getElem_extractLsb', BitVec.getElem_extractLsb', Nat.add_assoc, getLsbD_cwEncode_payload p (by omega)]

@[simp] theorem cwEncode_extractLsb'_payload (p : Payload) : (cwEncode p).extractLsb' 11 21 = p := by
  rw [extractLsb'_cwEncode_payload p (start := 0) (by decide), BitVec.extractLsb'_eq_self]

/-! ### What an address payload is made of (R83, R84) -/

theorem toNat_addressOf (capcode : BitVec 32) : (addressOf capcode).toNat = capcode.toNat >>> 3 &&& 0x3FFFF := by
  have hmask : capcode.toNat >>> 3 &&& 0x3FFFF ≤ 0x3FFFF := Nat.and_le_right
  simp only [addressOf, BitVec.toNat_setWidth, BitVec.toNat_and, BitVec.toNat_ushiftRight, BitVec.toNat_ofNat,
    Nat.reducePow, Nat.reduceMod]
  omega

/-- R84 in natural numbers: the masks leave no bit that the width of the payload could cut off. -/
theorem toNat_addressPayload (capcode : BitVec 32) (function : BitVec 8) :
    (addressPayload capcode function).toNat =
      ((capcode.toNat >>> 3 &&& 0x3FFFF) <<< 2) ||| (function.toNat &&& 0x3) := by
  have haddress : capcode.toNat >>> 3 &&& 0x3FFFF ≤ 0x3FFFF := Nat.and_le_right
  have hfunction : function.toNat &&& 3 ≤ 3 := Nat.and_le_right
  simp only [addressPayload, BitVec.toNat_or, BitVec.toNat_shiftLeft, toNat_addressOf, BitVec.toNat_setWidth,
    BitVec.toNat_and, BitVec.toNat_ofNat, Nat.shiftLeft_eq, Nat.reducePow, Nat.reduceMod]
  rw [Nat.mod_eq_of_lt (by omega), Nat.mod_eq_of_lt (by omega)]

/-- The table of R83 from the payload's highest bit down: type bit 0, eighteen address bits, two function bits. -/
theorem addressPayload_eq_append (capcode : BitVec 32) (function : BitVec 8) :
    addressPayload capcode function =
      0#1 ++ ((capcode >>> 3) &&& 0x3FFFF#32).setWidth 18 ++ (function &&& 0x3#8).setWidth 2 := by
  have haddress : capcode.toNat >>> 3 &&& 0x3FFFF ≤ 0x3FFFF := Nat.and_le_right
  have hfunction : function.toNat &&& 3 ≤ 3 := Nat.and_le_right
  apply BitVec.eq_of_toNat_eq
  simp only [toNat_addressPayload, BitVec.toNat_append, BitVec.toNat_setWidth, BitVec.toNat_and,
    BitVec.toNat_ushiftRight, BitVec.toNat_ofNat, Nat.reducePow, Nat.reduceMod, Nat.zero_shiftLeft, Nat.zero_or]
  rw [Nat.mod_eq_of_lt (by omega), Nat.mod_eq_of_lt (by omega)]

theorem addressPayload_typeBit (capcode : BitVec 32) (function : BitVec 8) :
    (addressPayload capcode function).getLsbD 20 = false := by
  rw [addressPayload_eq_append, BitVec.getLsbD_append, BitVec.getLsbD_append, if_neg (by decide), if_neg (by decide),
    BitVec.getLsbD_zero]

theorem addressPayload_address (capcode : BitVec 32) (function : BitVec 8) :
    (addressPayload capcode function).extractLsb' 2 18 = ((capcode >>> 3) &&& 0x3FFFF#32).setWidth 18 := by
  rw [addressPayload_eq_append]
  ext i hi
  rw [BitVec.getElem_extractLsb', BitVec.getLsbD_append, BitVec.getLsbD_append, if_neg (by omega), if_pos (by omega),
    Nat.add_sub_cancel_left, BitVec.getLsbD_eq_getElem]

theorem addressPayload_function (capcode : BitVec 32) (function : BitVec 8) :
    (addressPayload capcode function).extractLsb' 0 2 = (function &&& 0x3#8).setWidth 2 := by
  rw [addressPayload_eq_append, BitVec.extractLsb'_append_eq_right]

/-! ### What the two operations answer (40_codeword_encoder.md R123, R124) -/

theorem exec_cwEncode (payload : Payload) (s : State) :
    exec (.cwEncode payload) s = .next { s with answers := s.answers ++ [.codeword (cwEncode payload)] } := rfl

theorem exec_cwAddress (capcode : BitVec 32) (function : BitVec 8) (s : State) :
    exec (.cwAddress capcode function) s =
      .next { s with answers := s.answers ++ [.codeword (cwEncode (addressPayload capcode function))] } := rfl

/-- Settles O16: the word is `CW_ENCODE` of the address payload, so each of its fields is one of the payload's fields,
11 bits higher. -/
theorem addressCodewordFields : Obligations.AddressCodewordFields := by
  intro capcode function s
  refine ⟨cwEncode (addressPayload capcode function), exec_cwAddress capcode function s, ?_, ?_, ?_, ?_, ?_⟩
  · exact (getLsbD_cwEncode_payload _ (i := 20) (by decide)).trans (addressPayload_typeBit capcode function)
  · exact (extractLsb'_cwEncode_payload _ (start := 2) (by decide)).trans (addressPayload_address capcode function)
  · exact (extractLsb'_cwEncode_payload _ (start := 0) (by decide)).trans (addressPayload_function capcode function)
  · rw [cwEncode_extractLsb'_payload, toNat_addressPayload]
  · rw [cwEncode_extractLsb'_payload, exec_cwEncode]

end Sys2Proof.Machine
end

section
/-! PROOF. The check of a codeword (spec/40_codeword_encoder.md R120, R121): the multiples of `GEN` are closed under XOR,
none but 0 has degree below 10, and the reduction loop takes multiples off its register until the degree is below 10. -/

namespace Sys2Proof.Machine

/-! ### The multiples of the generator (R120, R127) -/

@[simp] theorem genMultiple_zero (q : BitVec 21) : genMultiple q 0 = 0#31 := rfl

/-- Multiples add coefficient by coefficient; two equal terms cancel. -/
theorem genMultiple_xor (q r : BitVec 21) (n : Nat) :
    genMultiple (q ^^^ r) n = genMultiple q n ^^^ genMultiple r n := by
  induction n with
  | zero => simp
  | succ n ih =>
    have hterm : (if (q ^^^ r).getLsbD n then Config.gen <<< n else 0#31) =
        (if q.getLsbD n then Config.gen <<< n else 0#31) ^^^ (if r.getLsbD n then Config.gen <<< n else 0#31) := by
      rw [BitVec.getLsbD_xor]
      cases q.getLsbD n <;> cases r.getLsbD n <;> simp
    rw [genMultiple, genMultiple, genMultiple, hterm, ih]
    ac_rfl

theorem divisibleByGen_zero : divisibleByGen 0#31 := ⟨0#21, by decide⟩

theorem divisibleByGen.xor {v w : BitVec 31} (hv : divisibleByGen v) (hw : divisibleByGen w) :
    divisibleByGen (v ^^^ w) := by
  obtain ⟨q, rfl⟩ := hv
  obtain ⟨r, rfl⟩ := hw
  exact ⟨q ^^^ r, (genMultiple_xor q r 21).symm⟩

/-- Congruence modulo `GEN` is transitive. -/
theorem divisibleByGen.trans {u v w : BitVec 31} (huv : divisibleByGen (u ^^^ v)) (hvw : divisibleByGen (v ^^^ w)) :
    divisibleByGen (u ^^^ w) := by
  have hcancel : (u ^^^ v) ^^^ (v ^^^ w) = u ^^^ w := by
    rw [BitVec.xor_assoc, ← BitVec.xor_assoc v, BitVec.xor_self, BitVec.zero_xor]
  exact hcancel ▸ huv.xor hvw

/-- `GEN << k` is the multiple by `x^k`, for each of the 21 shifts of the loop. -/
theorem divisibleByGen_gen_shiftLeft {k : Nat} (hk : k < 21) : divisibleByGen (Config.gen <<< k) := by
  have hmonomial : ∀ k < 21, Config.gen <<< k = genMultiple (1#21 <<< k) 21 := by decide
  exact ⟨1#21 <<< k, hmonomial k hk⟩

/-! ### Degrees -/

/-- The polynomial has degree below `d`: the register's bits from `d` upwards are 0 (R121). -/
def degreeLt (v : BitVec 31) (d : Nat) : Prop := ∀ i, d ≤ i → v.getLsbD i = false

theorem degreeLt_zero (d : Nat) : degreeLt 0#31 d := fun _ _ => BitVec.getLsbD_zero

theorem degreeLt.mono {v : BitVec 31} {d e : Nat} (hv : degreeLt v d) (hde : d ≤ e) : degreeLt v e :=
  fun i hi => hv i (hde.trans hi)

theorem degreeLt.xor {v w : BitVec 31} {d : Nat} (hv : degreeLt v d) (hw : degreeLt w d) : degreeLt (v ^^^ w) d :=
  fun i hi => by rw [BitVec.getLsbD_xor, hv i hi, hw i hi, Bool.xor_false]

theorem degreeLt.of_succ {v : BitVec 31} {d : Nat} (hv : degreeLt v (d + 1)) (hd : v.getLsbD d = false) :
    degreeLt v d := by
  intro i hi
  rcases hi.eq_or_lt with rfl | hlt
  · exact hd
  · exact hv i hlt

theorem degreeLt_setWidth (c : CheckBits) : degreeLt (c.setWidth 31) 10 :=
  fun i hi => by rw [BitVec.getLsbD_setWidth, BitVec.getLsbD_of_ge c i hi, Bool.and_false]

/-- Below degree 10 the low ten bits are the whole polynomial. -/
theorem degreeLt.setWidth_setWidth {v : BitVec 31} (hv : degreeLt v 10) : (v.setWidth 10).setWidth 31 = v := by
  ext i hi
  rw [BitVec.getElem_setWidth, BitVec.getLsbD_setWidth, ← BitVec.getLsbD_eq_getElem]
  by_cases hlow : i < 10
  · simp [hlow]
  · simp [hlow, hv i (by omega)]

/-- `GEN << n` has its highest 1 at bit `n + 10`, since `GEN` has degree 10 (R120, R121). -/
theorem degreeLt_gen_shiftLeft (n : Nat) : degreeLt (Config.gen <<< n) (n + 11) := by
  intro i hi
  have hgen : Config.gen.toNat < 2 ^ 11 := by decide
  have htop : Config.gen.getLsbD (i - n) = false :=
    Nat.testBit_lt_two_pow (hgen.trans_le (Nat.pow_le_pow_right Nat.two_pos (by omega)))
  rw [BitVec.getLsbD_shiftLeft, htop, Bool.and_false]

theorem getLsbD_gen_shiftLeft_top {n : Nat} (hn : n < 21) : (Config.gen <<< n).getLsbD (n + 10) = true := by
  have hgen : Config.gen.getLsbD 10 = true := by decide
  have hwidth : n + 10 < 31 := by omega
  simp [hgen, hwidth]

theorem degreeLt_genMultiple (q : BitVec 21) (n : Nat) : degreeLt (genMultiple q n) (n + 10) := by
  induction n with
  | zero => exact degreeLt_zero _
  | succ n ih =>
    rw [genMultiple]
    refine degreeLt.xor ?_ (ih.mono (by omega))
    split
    · exact degreeLt_gen_shiftLeft n
    · exact degreeLt_zero _

/-- The highest quotient bit shows at the highest bit of the multiple. -/
theorem getLsbD_genMultiple_top (q : BitVec 21) {n : Nat} (hn : n < 21) :
    (genMultiple q (n + 1)).getLsbD (n + 10) = q.getLsbD n := by
  rw [genMultiple, BitVec.getLsbD_xor, degreeLt_genMultiple q n _ le_rfl, Bool.xor_false]
  split
  case isTrue hq => rw [getLsbD_gen_shiftLeft_top hn, hq]
  case isFalse hq => simpa using hq

/-- No multiple but 0 has degree below 10: the quotient's bits are 0 one after another, the highest first. -/
theorem genMultiple_eq_zero_of_degreeLt (q : BitVec 21) {n : Nat} (hn : n ≤ 21) (hlow : degreeLt (genMultiple q n) 10) :
    genMultiple q n = 0#31 := by
  induction n with
  | zero => rfl
  | succ n ih =>
    have hq : q.getLsbD n = false := (getLsbD_genMultiple_top q hn).symm.trans (hlow _ (by omega))
    have hdrop : genMultiple q (n + 1) = genMultiple q n := by simp [genMultiple, hq]
    rw [hdrop] at hlow ⊢
    exact ih (by omega) hlow

/-- A polynomial has one remainder: the XOR of two is a multiple of degree below 10. -/
theorem eq_of_divisibleByGen_xor {v : BitVec 31} {c c' : CheckBits} (hc : divisibleByGen (v ^^^ c.setWidth 31))
    (hc' : divisibleByGen (v ^^^ c'.setWidth 31)) : c = c' := by
  obtain ⟨q, hq⟩ : divisibleByGen (c.setWidth 31 ^^^ c'.setWidth 31) := (BitVec.xor_comm v _ ▸ hc).trans hc'
  have hlow : degreeLt (genMultiple q 21) 10 := hq ▸ (degreeLt_setWidth c).xor (degreeLt_setWidth c')
  have hzero : c.setWidth 31 ^^^ c'.setWidth 31 = 0#31 := hq.trans (genMultiple_eq_zero_of_degreeLt q le_rfl hlow)
  have hwide : c.setWidth 31 = c'.setWidth 31 := BitVec.xor_eq_zero_iff.mp hzero
  simpa using congrArg (BitVec.setWidth 10) hwide

/-! ### The reduction loop (R121) -/

/-- Every iteration changes the register by a multiple of `GEN` or not at all. -/
theorem divisibleByGen_xor_bchReduce {n : Nat} (hn : n ≤ 21) (reg : BitVec 31) :
    divisibleByGen (reg ^^^ bchReduce n reg) := by
  induction n generalizing reg with
  | zero => rw [bchReduce, BitVec.xor_self]; exact divisibleByGen_zero
  | succ n ih =>
    rw [bchReduce]
    split
    · have hiteration : divisibleByGen (reg ^^^ (reg ^^^ Config.gen <<< n)) := by
        rw [← BitVec.xor_assoc, BitVec.xor_self, BitVec.zero_xor]
        exact divisibleByGen_gen_shiftLeft hn
      exact hiteration.trans (ih (by omega) _)
    · exact ih (by omega) reg

/-- The iteration for a bit clears it, so after the last one the degree is below 10. -/
theorem degreeLt_bchReduce {n : Nat} (hn : n ≤ 21) {reg : BitVec 31} (hreg : degreeLt reg (n + 10)) :
    degreeLt (bchReduce n reg) 10 := by
  induction n generalizing reg with
  | zero => exact hreg.mono (by omega)
  | succ n ih =>
    refine ih (by omega) ?_
    split
    case isTrue hbit =>
      refine (hreg.mono (by omega) |>.xor (degreeLt_gen_shiftLeft n)).of_succ ?_
      rw [BitVec.getLsbD_xor, hbit, getLsbD_gen_shiftLeft_top hn, Bool.xor_self]
    case isFalse hbit =>
      exact (hreg.mono (by omega)).of_succ (by simpa using hbit)

/-- The ten bits `BCH_CHECK` keeps are all that the loop leaves. -/
theorem setWidth_bchCheck (p : Payload) : (bchCheck p).setWidth 31 = bchReduce 21 (p.setWidth 31 <<< 10) :=
  (degreeLt_bchReduce le_rfl fun _ hi => BitVec.getLsbD_of_ge _ _ hi).setWidth_setWidth

/-! ### `BCH_CHECK` (R121) -/

theorem divisibleByGen_xor_bchCheck (p : Payload) :
    divisibleByGen ((p.setWidth 31 <<< 10) ^^^ (bchCheck p).setWidth 31) := by
  rw [setWidth_bchCheck]
  exact divisibleByGen_xor_bchReduce le_rfl _

theorem eq_bchCheck_of_divisibleByGen {p : Payload} {c : CheckBits}
    (hc : divisibleByGen ((p.setWidth 31 <<< 10) ^^^ c.setWidth 31)) : c = bchCheck p :=
  eq_of_divisibleByGen_xor hc (divisibleByGen_xor_bchCheck p)

/-- The XOR of two remainders is a remainder of the XOR, and there is only one. -/
theorem bchCheck_xor (a b : Payload) : bchCheck (a ^^^ b) = bchCheck a ^^^ bchCheck b := by
  refine (eq_bchCheck_of_divisibleByGen ?_).symm
  have hsum := (divisibleByGen_xor_bchCheck a).xor (divisibleByGen_xor_bchCheck b)
  rw [BitVec.setWidth_xor, BitVec.setWidth_xor, BitVec.shiftLeft_xor_distrib]
  convert hsum using 1
  ac_rfl

theorem exec_bchCheck (payload : Payload) (s : State) :
    exec (.bchCheck payload) s = .next { s with answers := s.answers ++ [.check (bchCheck payload)] } := rfl

/-- Settles O11: the loop subtracts multiples of `GEN` until the degree is below 10, and a remainder is unique. -/
theorem bchCheckAnswersTheRemainder : Obligations.BchCheckAnswersTheRemainder := fun payload s =>
  ⟨bchCheck payload, exec_bchCheck payload s, divisibleByGen_xor_bchCheck payload,
    fun _ hc' => eq_bchCheck_of_divisibleByGen hc'⟩

/-- Settles O12, from the uniqueness of the remainder. -/
theorem bchCheckIsLinear : Obligations.BchCheckIsLinear := by
  intro a b s
  refine ⟨bchCheck a, bchCheck b, exec_bchCheck a s, exec_bchCheck b s, ?_⟩
  rw [exec_bchCheck, bchCheck_xor]

end Sys2Proof.Machine
end

section
/-! PROOF. Parity and the laws of a codeword (spec/40_codeword_encoder.md R122, R123, R126): the XOR of bits as a count, the
fields of a codeword side by side, and what follows from them. -/

namespace Sys2Proof.Machine

/-! ### Parity as a count of 1 bits (R122) -/

theorem xorBits_eq_foldl (w : BitVec 32) (n : Nat) :
    xorBits w n = (List.range n).foldl (fun acc i => acc ^^ w.getLsbD i) false := by
  induction n with
  | zero => rfl
  | succ n ih => rw [xorBits, ih, List.range_succ, List.foldl_concat, Bool.xor_comm]

/-- One more bit changes the parity of a count exactly when it is 1. -/
theorem decide_odd_add_toNat (n : Nat) (b : Bool) : decide ((n + b.toNat) % 2 = 1) = (decide (n % 2 = 1) ^^ b) := by
  cases b with
  | false => simp
  | true =>
    rw [Bool.toNat_true, Bool.xor_true, ← decide_not]
    exact decide_eq_decide.mpr (by omega)

theorem xorBits_eq_countP (w : BitVec 32) (n : Nat) :
    xorBits w n = decide ((List.range n).countP (fun i => w.getLsbD i) % 2 = 1) := by
  induction n with
  | zero => rfl
  | succ n ih =>
    have hlast : [n].countP (fun i => w.getLsbD i) = (w.getLsbD n).toNat := by cases h : w.getLsbD n <;> simp [h]
    rw [xorBits, ih, List.range_succ, List.countP_append, hlast, decide_odd_add_toNat, Bool.xor_comm]

theorem parity32_eq_popcount (w : BitVec 32) : parity32 w = decide (popcount w % 2 = 1) := xorBits_eq_countP w 32

/-- Bit 0 apart, the other bits of a word count as a word of their own. -/
theorem popcount_eq_bit0_add {w : Nat} (v : BitVec (w + 1)) :
    popcount v = popcount (v.extractLsb' 1 w) + (v.getLsbD 0).toNat := by
  have hupper : (List.range w).countP (v.getLsbD ∘ Nat.succ) = popcount (v.extractLsb' 1 w) := by
    refine List.countP_congr fun i hi => ?_
    have hiw := List.mem_range.mp hi
    simp [hiw, Nat.add_comm]
  rw [popcount, List.range_succ_eq_map, List.countP_cons, List.countP_map, hupper]
  cases v.getLsbD 0 <;> rfl

theorem parity32_eq_bit0_xor (w : BitVec 32) :
    parity32 w = (decide (popcount (w.extractLsb' 1 31) % 2 = 1) ^^ w.getLsbD 0) := by
  rw [parity32_eq_popcount, popcount_eq_bit0_add (w := 31), decide_odd_add_toNat]

/-! ### The fields of a codeword side by side (R81, R123) -/

/-- The three fields do not overlap, so the OR of R123 sets them side by side. -/
theorem or_shifted_fields_eq_append (p : Payload) (c : CheckBits) (b : BitVec 1) :
    (p.setWidth 32 <<< 11 ||| c.setWidth 32 <<< 1) ||| b.setWidth 32 = p ++ c ++ b := by
  have hfields := BitVec.setWidth_append_append_eq_shiftLeft_setWidth_or (w''' := 32) (b := p) (b' := c) (b'' := b)
  rw [BitVec.setWidth_eq] at hfields
  exact hfields.symm

theorem cwEncode_eq_append (p : Payload) : cwEncode p = p ++ bchCheck p ++ BitVec.ofBool (parity32 (cwBody p)) :=
  or_shifted_fields_eq_append p (bchCheck p) _

theorem cwBody_eq_append (p : Payload) : cwBody p = p ++ bchCheck p ++ 0#1 := by
  rw [← or_shifted_fields_eq_append, BitVec.setWidth_zero, BitVec.or_zero, cwBody]

theorem cwBody_extractLsb'_upper (p : Payload) : (cwBody p).extractLsb' 1 31 = p ++ bchCheck p := by
  rw [cwBody_eq_append]
  exact BitVec.extractLsb'_append_eq_left

theorem cwEncode_extractLsb'_upper (p : Payload) : (cwEncode p).extractLsb' 1 31 = p ++ bchCheck p := by
  rw [cwEncode_eq_append]
  exact BitVec.extractLsb'_append_eq_left

theorem cwEncode_extractLsb'_check (p : Payload) : (cwEncode p).extractLsb' 1 10 = bchCheck p := by
  rw [cwEncode_eq_append, BitVec.extractLsb'_append_eq_of_le le_rfl, BitVec.extractLsb'_append_eq_right]

theorem getLsbD_cwBody_zero (p : Payload) : (cwBody p).getLsbD 0 = false := by
  rw [cwBody_eq_append, BitVec.getLsbD_append, if_pos (by decide), BitVec.getLsbD_zero]

/-- The parity field is the parity of the word before it was set. -/
theorem getLsbD_cwEncode_zero (p : Payload) : (cwEncode p).getLsbD 0 = parity32 (cwBody p) := by
  rw [cwEncode_eq_append, BitVec.getLsbD_append, if_pos (by decide)]
  simp

theorem cwEncode_and_mask (p : Payload) : cwEncode p &&& 0xFFFFFFFE#32 = cwBody p := by
  have hmask : 0xFFFFFFFE#32 = (BitVec.allOnes 31 ++ 0#1 : BitVec 32) := by decide
  rw [cwEncode_eq_append, cwBody_eq_append, hmask]
  exact BitVec.and_append.trans (by rw [BitVec.and_allOnes, BitVec.and_zero])

theorem parity32_cwEncode (p : Payload) : parity32 (cwEncode p) = false := by
  rw [parity32_eq_bit0_xor, getLsbD_cwEncode_zero, parity32_eq_bit0_xor (cwBody p), getLsbD_cwBody_zero,
    cwBody_extractLsb'_upper, cwEncode_extractLsb'_upper, Bool.xor_false, Bool.xor_self]

theorem popcount_cwEncode_even (p : Payload) : popcount (cwEncode p) % 2 = 0 := by
  have heven := parity32_cwEncode p
  rw [parity32_eq_popcount, decide_eq_false_iff_not] at heven
  omega

/-- A payload and check bits side by side are the sum of the two polynomials (R127). -/
theorem append_eq_shiftLeft_xor (p : Payload) (c : CheckBits) : p ++ c = (p.setWidth 31 <<< 10) ^^^ c.setWidth 31 := by
  ext i hi
  rw [BitVec.getElem_append, BitVec.getElem_xor, BitVec.getElem_shiftLeft, BitVec.getElem_setWidth]
  split
  case isTrue hlow => simp [hlow]
  case isFalse hhigh =>
    have hcheck : c.getLsbD i = false := BitVec.getLsbD_of_ge c i (by omega)
    simp [hhigh, hcheck, BitVec.getLsbD_eq_getElem (x := p) (i := i - 10) (by omega)]

/-- Above its parity bit a codeword is the payload shifted by ten with its remainder added (R126 (e)). -/
theorem divisibleByGen_cwEncode (p : Payload) : divisibleByGen ((cwEncode p).extractLsb' 1 31) := by
  rw [cwEncode_extractLsb'_upper, append_eq_shiftLeft_xor]
  exact divisibleByGen_xor_bchCheck p

theorem cwEncode_injective : Function.Injective cwEncode := fun p p' h => by
  simpa using congrArg (BitVec.extractLsb' 11 21) h

/-! ### What the operations answer (R122, R123) -/

theorem next_answer_inj {a b : Answer} {s : State} :
    (.next { s with answers := s.answers ++ [a] } : Host.Outcome State Fault Refusal) =
      .next { s with answers := s.answers ++ [b] } ↔ a = b := by
  simp

theorem exec_cwEncode_eq_iff {p : Payload} {s : State} {w : Codeword} :
    exec (.cwEncode p) s = .next { s with answers := s.answers ++ [.codeword w] } ↔ cwEncode p = w := by
  rw [exec_cwEncode, next_answer_inj, Answer.codeword.injEq]

theorem exec_parity32 (word : BitVec 32) (s : State) :
    exec (.parity32 word) s = .next { s with answers := s.answers ++ [.parity (parity32 word)] } := rfl

/-- Settles O13: the fold and the count by induction on the bits, the parity field because `CW_ENCODE` takes it over the
word with bit 0 clear, which is what the mask leaves. -/
theorem parityIsTheXorOfAllBits : Obligations.ParityIsTheXorOfAllBits := by
  refine ⟨fun w s => ⟨parity32 w, exec_parity32 w s, xorBits_eq_foldl w 32, parity32_eq_popcount w, ?_⟩, ?_, rfl, ?_⟩
  · intro hbit0
    rw [parity32_eq_bit0_xor, hbit0, Bool.xor_false]
  · intro p s w hw
    obtain rfl := exec_cwEncode_eq_iff.mp hw
    rw [exec_parity32, cwEncode_and_mask, getLsbD_cwEncode_zero]
  · decide

/-- Settles O14: the fields of a codeword side by side give every law; injectivity is (a). -/
theorem codewordStructuralInvariant : Obligations.CodewordStructuralInvariant := by
  intro p s
  refine ⟨cwEncode p, exec_cwEncode p s, cwEncode_extractLsb'_payload p, ?_, popcount_cwEncode_even p, ?_,
    divisibleByGen_cwEncode p, fun p' h => cwEncode_injective (exec_cwEncode_eq_iff.mp h)⟩
  · rw [cwEncode_extractLsb'_payload, cwEncode_extractLsb'_check, exec_bchCheck]
  · rw [cwEncode_extractLsb'_payload, exec_cwEncode]

end Sys2Proof.Machine
end

section
/-! PROOF. The capcodes that share an address codeword (spec/30_encoding.md R84, spec/70_reset_and_hazards.md R259), and the
sentinels among the codewords (spec/30_encoding.md R86, spec/40_codeword_encoder.md R125). -/

namespace Sys2Proof.Machine

/-! ### Which capcodes share a codeword (R84, R259) -/

theorem capcode_mask_eq_extractLsb' (capcode : BitVec 32) :
    ((capcode >>> 3) &&& 0x3FFFF#32).setWidth 18 = capcode.extractLsb' 3 18 := by
  have hmask : (0x3FFFF#32).setWidth 18 = BitVec.allOnes 18 := by decide
  rw [BitVec.setWidth_and, hmask, BitVec.and_allOnes]
  ext i hi
  simp

theorem function_mask_eq_extractLsb' (function : BitVec 8) :
    (function &&& 0x3#8).setWidth 2 = function.extractLsb' 0 2 := by
  have hmask : (0x3#8).setWidth 2 = BitVec.allOnes 2 := by decide
  rw [BitVec.setWidth_and, hmask, BitVec.and_allOnes, BitVec.setWidth_eq_extractLsb' (by decide)]

theorem addressPayload_eq_iff {c c' : BitVec 32} {f f' : BitVec 8} :
    addressPayload c f = addressPayload c' f' ↔
      c.extractLsb' 3 18 = c'.extractLsb' 3 18 ∧ f.extractLsb' 0 2 = f'.extractLsb' 0 2 := by
  simp only [← capcode_mask_eq_extractLsb', ← function_mask_eq_extractLsb']
  constructor
  · intro h
    rw [← addressPayload_address c f, ← addressPayload_function c f, h]
    exact ⟨addressPayload_address c' f', addressPayload_function c' f'⟩
  · rintro ⟨haddress, hfunction⟩
    rw [addressPayload_eq_append, addressPayload_eq_append, haddress, hfunction]

/-- Settles O18: an address codeword determines its payload, and the payload is the two fields. -/
theorem capcodesAliasExactlyByAddressAndFunction : Obligations.CapcodesAliasExactlyByAddressAndFunction := by
  intro c c' f f' s
  rw [exec_cwAddress, exec_cwAddress, next_answer_inj, Answer.codeword.injEq, cwEncode_injective.eq_iff,
    addressPayload_eq_iff]

/-! ### The sentinels (R86, R125) -/

theorem cwEncode_eq_sync : cwEncode 0x0F9A42#21 = Config.sync := by decide +kernel

theorem cwEncode_eq_idle : cwEncode 0x0F5138#21 = Config.idle := by decide +kernel

theorem messagePayload_typeBit (chunk : Chunk) : (messagePayload chunk).getLsbD 20 = true := by simp [messagePayload]

theorem getLsbD_cwMessage_type (chunk : Chunk) : (cwMessage chunk).getLsbD 31 = true :=
  (getLsbD_cwEncode_payload _ (i := 20) (by decide)).trans (messagePayload_typeBit chunk)

theorem exec_cwMessage (chunk : Chunk) (s : State) :
    exec (.cwMessage chunk) s = .next { s with answers := s.answers ++ [.codeword (cwMessage chunk)] } := rfl

/-- Settles O15: a message codeword has type bit 1, and both sentinels have type bit 0. -/
theorem sentinelsAreCodewordsButNoMessages : Obligations.SentinelsAreCodewordsButNoMessages := by
  refine ⟨fun s => ⟨exec_cwEncode_eq_iff.mpr cwEncode_eq_sync, exec_cwEncode_eq_iff.mpr cwEncode_eq_idle⟩, ?_⟩
  intro c s w hw
  have hmessage : cwMessage c = w := by
    rwa [exec_cwMessage, next_answer_inj, Answer.codeword.injEq] at hw
  have htype : w.getLsbD 31 = true := hmessage ▸ getLsbD_cwMessage_type c
  constructor
  · rintro rfl
    exact absurd htype (by decide)
  · rintro rfl
    exact absurd htype (by decide)

end Sys2Proof.Machine
end

section
/-! PROOF. `TEXT_PACK` (spec/41_batch_builder.md R141 to R143): the flat bit string of a message by index, its padding, and
its cut into chunks. -/

namespace Sys2Proof.Machine

/-! ### The flat bit string (R141, R142) -/

@[simp] theorem charBits_length (c : Byte) : (charBits c).length = 7 := natToBits_length _ _

/-- Bit `i` of a character counts from bit 6 of its byte downwards: the mask drops bit 7 alone (R142). -/
theorem charBits_getElem? (c : Byte) {i : Nat} (hi : i < 7) : (charBits c)[i]? = some (c.getLsbD (6 - i)) := by
  have hmask : ∀ i < 7, (0x7F#8).getLsbD (6 - i) = true := by decide
  have hbit : (c &&& 0x7F#8).getLsbD (6 - i) = c.getLsbD (6 - i) := by
    rw [BitVec.getLsbD_and, hmask i hi, Bool.and_true]
  rw [List.getElem?_eq_getElem (by simpa using hi), ← hbit]
  exact congrArg some (natToBits_getElem (k := 7) (by simpa using hi))

@[simp] theorem flatBits_length (message : List Byte) : (flatBits message).length = 7 * message.length := by
  simp [flatBits, Nat.mul_comm]

/-- Flat bit `p` belongs to character `p / 7` and is its bit `p % 7`. -/
theorem flatBits_getElem? (message : List Byte) (p : Nat) :
    (flatBits message)[p]? = message[p / 7]?.map (fun c => c.getLsbD (6 - p % 7)) := by
  induction message generalizing p with
  | nil => rfl
  | cons c cs ih =>
    have hcons : flatBits (c :: cs) = charBits c ++ flatBits cs := rfl
    by_cases hp : p < 7
    · rw [hcons, List.getElem?_append_left (by simpa using hp), charBits_getElem? c hp, Nat.div_eq_of_lt hp,
        Nat.mod_eq_of_lt hp]
      rfl
    · have hdiv : p / 7 = (p - 7) / 7 + 1 := by omega
      have hmod : p % 7 = (p - 7) % 7 := by omega
      rw [hcons, List.getElem?_append_right (by simpa using hp), charBits_length, ih, hdiv, hmod,
        List.getElem?_cons_succ]

/-! ### Padding to whole chunks (R141, 20_memory.md R53, R55) -/

theorem padChunks_eq (flat : Bits) :
    padChunks flat = if flat = [] then List.replicate 20 false
      else flat ++ List.replicate ((20 - flat.length % 20) % 20) false := rfl

/-- Padding fills up to the next whole chunk, and to one chunk where there is no bit. -/
theorem padChunks_length (flat : Bits) : (padChunks flat).length = 20 * max 1 ((flat.length + 19) / 20) := by
  rw [padChunks_eq]
  split
  case isTrue hempty => simp [hempty]
  case isFalse hbits =>
    have hpos : 0 < flat.length := List.length_pos_iff.mpr hbits
    rw [List.length_append, List.length_replicate]
    omega

/-- Padding adds 0 bits only, so a position reads the same with it and without it. -/
theorem padChunks_getD (flat : Bits) (p : Nat) : (padChunks flat)[p]?.getD false = flat[p]?.getD false := by
  have hzeros : ∀ n q : Nat, (List.replicate n false)[q]?.getD false = false := by
    intro n q
    rw [List.getElem?_replicate]
    split <;> rfl
  rw [padChunks_eq]
  split
  case isTrue hempty => rw [hempty, hzeros]; rfl
  case isFalse hbits =>
    by_cases hp : p < flat.length
    · rw [List.getElem?_append_left hp]
    · rw [List.getElem?_append_right (by omega), hzeros, List.getElem?_eq_none (by omega), Option.getD_none]

/-! ### `TEXT_PACK` (R141) -/

/-- Bit `w − 1 − i` of group `j` is bit `w·j + i` of what was cut. -/
theorem groups_getLsbD {w k : Nat} {l : Bits} {j i : Nat} (hj : j < (groups w k l).length) (hl : l.length = w * k)
    (hi : i < w) : ((groups w k l)[j]).getLsbD (w - 1 - i) = l[w * j + i]?.getD false := by
  have hroom : w * j + w ≤ l.length := by
    rw [groups_length] at hj
    rw [hl, ← Nat.mul_succ]
    exact Nat.mul_le_mul_left w hj
  have hgroup : ((l.drop (w * j)).take w).length = w := by
    rw [List.length_take, List.length_drop]
    omega
  rw [groups_getElem, getLsbD_bitsToWord hgroup i hi, List.getElem_take, List.getElem_drop,
    List.getElem?_eq_getElem (by omega), Option.getD_some]

theorem textPack_eq_groups (message : List Byte) :
    textPack message = groups 20 ((padChunks (flatBits message)).length / 20) (padChunks (flatBits message)) := rfl

theorem textPack_length (message : List Byte) : (textPack message).length = max 1 ((7 * message.length + 19) / 20) := by
  rw [textPack_eq_groups, groups_length, padChunks_length, flatBits_length]
  omega

/-- Chunk bit `i` of chunk `j`, from the highest down, is flat bit `20·j + i`, or 0 past the message (R141). -/
theorem textPack_getLsbD (message : List Byte) {j i : Nat} (hj : j < (textPack message).length) (hi : i < 20) :
    ((textPack message)[j]).getLsbD (19 - i) = (flatBits message)[20 * j + i]?.getD false := by
  have hwhole : (padChunks (flatBits message)).length = 20 * ((padChunks (flatBits message)).length / 20) := by
    have hlen := padChunks_length (flatBits message)
    omega
  exact (groups_getLsbD hj hwhole hi).trans (padChunks_getD _ _)

theorem exec_textPack (message : List Byte) (s : State) :
    exec (.textPack message) s = .next { s with answers := s.answers ++ [.chunks (textPack message)] } := rfl

/-- Settles O19: a chunk bit is a flat bit or padding, and a flat bit is a bit of one character. -/
theorem textPackPlacesEveryBit : Obligations.TextPackPlacesEveryBit := by
  intro message s
  refine ⟨textPack message, exec_textPack message s, textPack_length message, fun j i hj hi => ?_⟩
  rw [textPack_getLsbD message hj hi, flatBits_getElem?]
  split
  case isTrue hin =>
    have hchar : (20 * j + i) / 7 < message.length := by omega
    rw [List.getElem?_eq_getElem hchar]
    rfl
  case isFalse hout =>
    rw [List.getElem?_eq_none (by omega)]
    rfl

end Sys2Proof.Machine
end

section
/-! PROOF. `BATCH_BUILD` (spec/41_batch_builder.md R145 to R147): the batches as one row of slots that holds the words placed
so far and IDLE after them, and the placement loop as an append to those words. -/

namespace Sys2Proof.Machine

/-! ### Batches that hold words from their first slot on (R145, R146) -/

@[simp] theorem idleBatch_length : idleBatch.length = 16 := List.length_replicate

/-- The slots of the batches, read in a row, are the words and then IDLE up to the end of the last batch. -/
structure HoldsWords (bs : List Batch) (ws : List Codeword) : Prop where
  slots : ∀ b ∈ bs, b.length = 16
  row : bs.flatten = ws ++ List.replicate (16 * bs.length - ws.length) Config.idle

theorem length_flatten_of_slots {bs : List Batch} (hbs : ∀ b ∈ bs, b.length = 16) :
    bs.flatten.length = 16 * bs.length := by
  rw [List.length_flatten, List.map_congr_left hbs, List.map_const', List.sum_replicate, smul_eq_mul, Nat.mul_comm]

theorem HoldsWords.length_le {bs : List Batch} {ws : List Codeword} (h : HoldsWords bs ws) :
    ws.length ≤ 16 * bs.length := by
  have hlen := congrArg List.length h.row
  rw [length_flatten_of_slots h.slots, List.length_append] at hlen
  omega

theorem HoldsWords.getElem? {bs : List Batch} {ws : List Codeword} (h : HoldsWords bs ws) {k : Nat}
    (hk : k < 16 * bs.length) : bs.flatten[k]? = some (ws[k]?.getD Config.idle) := by
  rw [h.row]
  by_cases hword : k < ws.length
  · rw [List.getElem?_append_left hword, List.getElem?_eq_getElem hword, Option.getD_some]
  · rw [List.getElem?_append_right (by omega), List.getElem?_replicate_of_lt (by omega),
      List.getElem?_eq_none (by omega), Option.getD_none]

/-- A batch of IDLE holds words that are themselves IDLE. -/
theorem idleBatch_holdsWords {n : Nat} (hn : n ≤ 16) : HoldsWords [idleBatch] (List.replicate n Config.idle) where
  slots := by
    intro b hb
    rw [List.mem_singleton.mp hb, idleBatch_length]
  row := by
    rw [List.flatten_singleton, List.replicate_append_replicate, List.length_replicate, List.length_singleton, Nat.mul_one,
      Nat.add_sub_cancel' hn]
    rfl

/-- Opening a continuation batch adds IDLE slots (R145). -/
theorem HoldsWords.append_idleBatch {bs : List Batch} {ws : List Codeword} (h : HoldsWords bs ws) :
    HoldsWords (bs ++ [idleBatch]) ws where
  slots := by
    intro b hb
    rcases List.mem_append.mp hb with hold | hnew
    · exact h.slots b hold
    · rw [List.mem_singleton.mp hnew]
      exact idleBatch_length
  row := by
    have hroom := h.length_le
    have hfree : 16 * (bs ++ [idleBatch]).length - ws.length = (16 * bs.length - ws.length) + 16 := by
      rw [List.length_append, List.length_singleton]
      omega
    rw [List.flatten_append, h.row, List.flatten_singleton, hfree, List.replicate_add, List.append_assoc]
    rfl

/-- Writing the first slot after the words adds one word to them (R145). -/
theorem HoldsWords.set_slot {done : List Batch} {cur : Batch} {ws : List Codeword} {slot : Nat}
    (h : HoldsWords (done ++ [cur]) ws) (hslot : slot < 16) (hws : ws.length = 16 * done.length + slot) (w : Codeword) :
    HoldsWords (done ++ [cur.set slot w]) (ws ++ [w]) where
  slots := by
    have hslots := h.slots
    simp only [List.mem_append, List.mem_singleton] at hslots ⊢
    rintro b (hold | rfl)
    · exact hslots b (.inl hold)
    · rw [List.length_set]
      exact hslots cur (.inr rfl)
  row := by
    have hdone : done.flatten.length = 16 * done.length :=
      length_flatten_of_slots fun b hb => h.slots b (List.mem_append_left _ hb)
    have hfree : 16 * (done ++ [cur]).length - ws.length = (15 - slot) + 1 := by
      rw [List.length_append, List.length_singleton]
      omega
    have hfree' : 16 * (done ++ [cur.set slot w]).length - (ws ++ [w]).length = 15 - slot := by
      simp only [List.length_append, List.length_singleton]
      omega
    have hset : done.flatten ++ cur.set slot w = (done ++ [cur]).flatten.set ws.length w := by
      rw [List.flatten_append, List.flatten_singleton, List.set_append_right _ _ (by omega), hdone, hws,
        Nat.add_sub_cancel_left]
    rw [hfree', List.flatten_append, List.flatten_singleton, hset, h.row, hfree, List.set_append_right _ _ le_rfl,
      Nat.sub_self, List.replicate_succ, List.set_cons_zero, List.append_assoc, List.singleton_append]

/-! ### The placement loop (R145, R146, R147) -/

/-- A result of the placement that was to hold `ws`: as many of them as 160 slots take, in the fewest batches, with
`truncated` where some are left (R146, decisions D6 and D7). -/
structure Places (result : List Batch × Bool) (ws : List Codeword) : Prop where
  holds : HoldsWords result.1 (ws.take 160)
  count : result.1.length = min 10 ((ws.length + 15) / 16)
  truncated : result.2 = decide (160 < ws.length)

theorem placeChunks_cons (c : Chunk) (cs : List Chunk) (done : List Batch) (cur : Batch) (slot : Nat) :
    placeChunks (c :: cs) done cur slot =
      if slot = 16 then
        if done.length + 1 = 10 then (done ++ [cur], true)
        else placeChunks cs (done ++ [cur]) (idleBatch.set 0 (cwMessage c)) 1
      else placeChunks cs done (cur.set slot (cwMessage c)) (slot + 1) := rfl

/-- With at least one word in the current batch, the loop appends the message codewords to the words placed so far. -/
theorem placeChunks_places {cs : List Chunk} {done : List Batch} {cur : Batch} {slot : Nat} {ws : List Codeword}
    (h : HoldsWords (done ++ [cur]) ws) (hws : ws.length = 16 * done.length + slot) (hslot : 0 < slot ∧ slot ≤ 16)
    (hdone : done.length < 10) : Places (placeChunks cs done cur slot) (ws ++ cs.map cwMessage) := by
  induction cs generalizing done cur slot ws with
  | nil =>
    have hfit : ws.length ≤ 160 := by omega
    rw [placeChunks, List.map_nil, List.append_nil]
    refine ⟨?_, ?_, ?_⟩
    · rwa [List.take_of_length_le hfit]
    · rw [List.length_append, List.length_singleton]
      omega
    · exact (decide_eq_false (by omega)).symm
  | cons c cs ih =>
    have hnext : ws ++ (c :: cs).map cwMessage = (ws ++ [cwMessage c]) ++ cs.map cwMessage := by simp
    have hlen : (ws ++ [cwMessage c]).length = ws.length + 1 := List.length_append
    rw [placeChunks_cons]
    split
    case isTrue hfull =>
      split
      case isTrue hcap =>
        have hall : ws.length = 160 := by omega
        refine ⟨?_, ?_, ?_⟩
        · rwa [List.take_left' hall]
        · rw [List.length_append, List.length_append, List.length_singleton, List.length_map, List.length_cons]
          omega
        · exact (decide_eq_true (by simp [hall])).symm
      case isFalse hroom =>
        have hclosed : (done ++ [cur]).length = done.length + 1 := List.length_append
        have hopened := h.append_idleBatch.set_slot (slot := 0) (by decide) (by omega) (cwMessage c)
        rw [hnext]
        exact ih hopened (by omega) (by decide) (by omega)
    case isFalse hfree =>
      rw [hnext]
      exact ih (h.set_slot (by omega) hws (cwMessage c)) (by omega) (by omega) hdone

/-! ### `BATCH_BUILD` (R145, 20_memory.md R56) -/

theorem frameOf_eq_mod (capcode : BitVec 32) : frameOf capcode = capcode.toNat % 8 := by
  rw [frameOf, BitVec.toNat_and]
  exact Nat.and_two_pow_sub_one_eq_mod _ 3

theorem frameOf_lt (capcode : BitVec 32) : frameOf capcode < 8 := frameOf_eq_mod capcode ▸ Nat.mod_lt _ (by decide)

/-- The words of a transmission in slot order: IDLE up to the frame, the address codeword, the message codewords. -/
def pageWords (capcode : BitVec 32) (function : BitVec 8) (message : List Byte) : List Codeword :=
  List.replicate (2 * frameOf capcode) Config.idle ++ [cwAddress capcode function] ++ (textPack message).map cwMessage

theorem pageWords_length (capcode : BitVec 32) (function : BitVec 8) (message : List Byte) :
    (pageWords capcode function message).length = 2 * frameOf capcode + 1 + (textPack message).length := by
  simp only [pageWords, List.length_append, List.length_replicate, List.length_singleton, List.length_map]

/-- Word `k` of a transmission; past the last there is IDLE. -/
theorem pageWords_getD (capcode : BitVec 32) (function : BitVec 8) (message : List Byte) (k : Nat) :
    (pageWords capcode function message)[k]?.getD Config.idle =
      (if k < 2 * frameOf capcode then Config.idle
      else if k = 2 * frameOf capcode then cwAddress capcode function
      else if h : k - (2 * frameOf capcode + 1) < (textPack message).length then
        cwMessage ((textPack message)[k - (2 * frameOf capcode + 1)])
      else Config.idle) := by
  have hhead : (List.replicate (2 * frameOf capcode) Config.idle ++ [cwAddress capcode function]).length =
      2 * frameOf capcode + 1 := by simp
  rw [pageWords]
  split
  case isTrue hbefore =>
    rw [List.getElem?_append_left (by omega), List.getElem?_append_left (by simpa using hbefore),
      List.getElem?_replicate_of_lt hbefore, Option.getD_some]
  case isFalse hfrom =>
    split
    case isTrue haddress =>
      rw [List.getElem?_append_left (by omega), haddress]
      simp
    case isFalse hafter =>
      rw [List.getElem?_append_right (by omega), hhead, List.getElem?_map]
      split
      case isTrue hmessage => rw [List.getElem?_eq_getElem hmessage]; rfl
      case isFalse hpast => rw [List.getElem?_eq_none (by omega)]; rfl

/-- Batch 0 before the message holds the IDLE words up to the frame and the address codeword. -/
theorem firstBatch_holdsWords (capcode : BitVec 32) (function : BitVec 8) :
    HoldsWords [firstBatch capcode function]
      (List.replicate (2 * frameOf capcode) Config.idle ++ [cwAddress capcode function]) := by
  have hframe := frameOf_lt capcode
  exact (idleBatch_holdsWords (by omega)).set_slot (done := []) (by omega) (by simp) _

theorem batchBuild_places (capcode : BitVec 32) (function : BitVec 8) (message : List Byte) :
    Places (batchBuild capcode function message) (pageWords capcode function message) := by
  have hframe := frameOf_lt capcode
  exact placeChunks_places (done := []) (firstBatch_holdsWords capcode function) (by simp) (by omega) (by decide)

theorem exec_batchBuild (capcode : BitVec 32) (function : BitVec 8) (message : List Byte) (s : State) :
    exec (.batchBuild capcode function message) s = .next { s with answers := s.answers ++
      [.batches (batchBuild capcode function message).1 (batchBuild capcode function message).2] } := rfl

/-- Settles O20: the batches hold the words of the transmission in slot order, as far as 160 slots go. -/
theorem batchBuildPlacement : Obligations.BatchBuildPlacement := by
  intro capcode function message s
  obtain ⟨hholds, hcount, htruncated⟩ := batchBuild_places capcode function message
  refine ⟨cwAddress capcode function, textPack message, _, _, exec_cwAddress capcode function s,
    exec_textPack message s, exec_batchBuild capcode function message s, hholds.slots, ?_, ?_, fun k hk => ?_⟩
  · rw [hcount, pageWords_length, frameOf_eq_mod]
  · rw [htruncated, pageWords_length, frameOf_eq_mod]
  · have hcap : k < 160 := by omega
    rw [hholds.getElem? hk, List.getElem?_take_of_lt hcap, pageWords_getD]
    simp only [frameOf_eq_mod]

end Sys2Proof.Machine
end

section
/-! PROOF. `BITS_ASSEMBLE` (spec/42_bitstream_assembler.md R160 to R163): the stream as the preamble and the bits of a row of
words, each bit complemented or none, and every bit of that row by its index (spec/20_memory.md R56). -/

namespace Sys2Proof.Machine

/-! ### Lists made of parts of one length -/

theorem length_flatMap_of_length {α β : Type} {f : α → List β} {m : Nat} {l : List α}
    (hf : ∀ a ∈ l, (f a).length = m) : (l.flatMap f).length = m * l.length := by
  rw [List.length_flatMap, List.map_congr_left hf, List.map_const', List.sum_replicate, smul_eq_mul, Nat.mul_comm]

/-- Place `r` of part `j` is place `m·j + r` of the whole. -/
theorem getElem?_flatMap_of_length {α β : Type} {f : α → List β} {m : Nat} {l : List α}
    (hf : ∀ a ∈ l, (f a).length = m) {j : Nat} (hj : j < l.length) {r : Nat} (hr : r < m) :
    (l.flatMap f)[m * j + r]? = (f l[j])[r]? := by
  induction l generalizing j with
  | nil => exact absurd hj (Nat.not_lt_zero j)
  | cons a l ih =>
    obtain ⟨ha, hl⟩ := List.forall_mem_cons.mp hf
    rw [List.flatMap_cons]
    cases j with
    | zero => rw [Nat.mul_zero, Nat.zero_add, List.getElem?_append_left (ha.symm ▸ hr), List.getElem_cons_zero]
    | succ j =>
      have hskip : m * (j + 1) + r - m = m * j + r := by rw [Nat.mul_succ]; omega
      rw [List.getElem?_append_right (by rw [ha, Nat.mul_succ]; omega), ha, hskip, ih hl (Nat.lt_of_succ_lt_succ hj),
        List.getElem_cons_succ]

/-! ### The preamble (R160) -/

@[simp] theorem preamble_length (n : Nat) : (preamble n).length = n := by rw [preamble, List.length_map, List.length_range]

theorem preamble_getElem? {n k : Nat} (hk : k < n) : (preamble n)[k]? = some (decide (k % 2 = 0)) := by
  rw [preamble, List.getElem?_map, List.getElem?_range hk]
  rfl

/-- The last element of an odd preamble has an even index. -/
theorem preamble_getLast?_of_odd {n : Nat} (hn : n % 2 = 1) : (preamble n).getLast? = some true := by
  rw [List.getLast?_eq_getElem?, preamble_length, preamble_getElem? (by omega), decide_eq_true (by omega)]

/-! ### The bits of a word (R161, R162) -/

theorem wordToBits_getElem? {w : Nat} (v : BitVec w) {k : Nat} (hk : k < w) :
    (wordToBits v)[k]? = some (v.getLsbD (w - 1 - k)) := by
  rw [List.getElem?_eq_getElem (by rwa [wordToBits_length]), wordToBits_getElem]

theorem getLsbD_lineWord (invert : Bool) (w : Codeword) {i : Nat} (hi : i < 32) :
    (lineWord invert w).getLsbD i = (invert ^^ w.getLsbD i) := by
  have hmask : 0xFFFFFFFF#32 = BitVec.allOnes 32 := by decide
  cases invert with
  | false => exact (Bool.false_xor _).symm
  | true => rw [lineWord, if_pos rfl, hmask, BitVec.getLsbD_xor, BitVec.getLsbD_allOnes, decide_eq_true hi, Bool.xor_comm]

/-- Complementing a word and then splitting it gives the same bits as splitting it first (R162, corner cases). -/
theorem wordToBits_lineWord (invert : Bool) (w : Codeword) :
    wordToBits (lineWord invert w) = (wordToBits w).map (invert ^^ ·) := by
  refine List.ext_getElem? fun k => ?_
  rw [List.getElem?_map]
  by_cases hk : k < 32
  · rw [wordToBits_getElem? _ hk, wordToBits_getElem? _ hk, Option.map_some, getLsbD_lineWord _ _ (by omega)]
  · rw [List.getElem?_eq_none (by simpa using hk), List.getElem?_eq_none (by simpa using hk), Option.map_none]

/-! ### The stream (R162) -/

/-- The words of the stream before any complement: SYNC and the slots, batch after batch (R162, R164). -/
def streamWords (batches : List Batch) : List Codeword := batches.flatMap (Config.sync :: ·)

theorem batchBits_eq_map (invert : Bool) (b : Batch) :
    batchBits invert b = ((Config.sync :: b).flatMap wordToBits).map (invert ^^ ·) := by
  simp only [batchBits, wordToBits_lineWord, List.map_flatMap]

/-- The preamble, and after it the bits of the words, with `invert` each one complemented. -/
theorem bitsAssemble_eq_append (batches : List Batch) (n : BitVec 16) (invert : Bool) :
    bitsAssemble batches n invert =
      preamble n.toNat ++ ((streamWords batches).flatMap wordToBits).map (invert ^^ ·) := by
  rw [bitsAssemble, List.flatMap_congr fun b _ => batchBits_eq_map invert b, streamWords, List.flatMap_assoc,
    List.map_flatMap]

theorem bitsAssemble_getElem?_preamble (batches : List Batch) (n : BitVec 16) (invert : Bool) {k : Nat}
    (hk : k < n.toNat) : (bitsAssemble batches n invert)[k]? = some (decide (k % 2 = 0)) := by
  rw [bitsAssemble_eq_append, List.getElem?_append_left (by rwa [preamble_length]), preamble_getElem? hk]

theorem bitsAssemble_getElem?_words (batches : List Batch) (n : BitVec 16) (invert : Bool) (k : Nat) :
    (bitsAssemble batches n invert)[n.toNat + k]? =
      ((streamWords batches).flatMap wordToBits)[k]?.map (invert ^^ ·) := by
  rw [bitsAssemble_eq_append, List.getElem?_append_right (by rw [preamble_length]; omega), preamble_length,
    Nat.add_sub_cancel_left, List.getElem?_map]

theorem bitsAssemble_length (batches : List Batch) (n : BitVec 16) (invert : Bool) :
    (bitsAssemble batches n invert).length = n.toNat + 32 * (streamWords batches).length := by
  rw [bitsAssemble_eq_append, List.length_append, preamble_length, List.length_map,
    length_flatMap_of_length fun w _ => wordToBits_length w]

/-- Bit `i` of word `m` of the stream stands at `preambleBits + 32·m + (31 − i)` (R56). -/
theorem bitsAssemble_getElem?_of_word {batches : List Batch} {m : Nat} {w : Codeword}
    (hw : (streamWords batches)[m]? = some w) (n : BitVec 16) (invert : Bool) {i : Nat} (hi : i < 32) :
    (bitsAssemble batches n invert)[n.toNat + (32 * m + (31 - i))]? = some (invert ^^ w.getLsbD i) := by
  obtain ⟨hm, rfl⟩ := List.getElem?_eq_some_iff.mp hw
  have hbit : 32 - 1 - (31 - i) = i := by omega
  rw [bitsAssemble_getElem?_words, getElem?_flatMap_of_length (fun w _ => wordToBits_length w) hm (by omega),
    wordToBits_getElem? _ (by omega), Option.map_some, hbit]

/-! ### Batches of sixteen slots (20_memory.md R56) -/

theorem streamWords_length {batches : List Batch} (h : ∀ b ∈ batches, b.length = 16) :
    (streamWords batches).length = 17 * batches.length :=
  length_flatMap_of_length (f := (Config.sync :: ·)) fun b hb => congrArg Nat.succ (h b hb)

/-- Word `r` of batch `b`, SYNC being word 0, is word `17·b + r` of the stream. -/
theorem streamWords_getElem? {batches : List Batch} (h : ∀ b ∈ batches, b.length = 16) {b : Nat}
    (hb : b < batches.length) {r : Nat} (hr : r < 17) :
    (streamWords batches)[17 * b + r]? = (Config.sync :: batches[b])[r]? :=
  getElem?_flatMap_of_length (f := (Config.sync :: ·)) (fun b hb => congrArg Nat.succ (h b hb)) hb hr

/-! ### What the operation answers (R162, R221) -/

theorem allocFails_iff {p : Params} {n : BitVec 16} : allocFails p n = true ↔ p.preambleMax < n.toNat :=
  decide_eq_true_iff

theorem exec_bitsAssemble_allocFail {n : BitVec 16} {s : State} (h : s.params.preambleMax < n.toNat)
    (batches : List Batch) (invert : Bool) :
    exec (.bitsAssemble batches n invert) s = .next { s with answers := s.answers ++ [.allocFail] } :=
  if_pos (allocFails_iff.mpr h)

theorem exec_bitsAssemble {n : BitVec 16} {s : State} (h : n.toNat ≤ s.params.preambleMax) (batches : List Batch)
    (invert : Bool) :
    exec (.bitsAssemble batches n invert) s =
      .next { s with answers := s.answers ++ [.bits (bitsAssemble batches n invert)] } :=
  if_neg (mt allocFails_iff.mp h.not_gt)

/-- Settles O21: with no batch the stream is the preamble. -/
theorem preambleAlternatesFromOne : Obligations.PreambleAlternatesFromOne := by
  intro n invert s hn
  have hexec := exec_bitsAssemble hn [] invert
  have hpreamble : bitsAssemble [] n invert = preamble n.toNat := List.append_nil _
  rw [hpreamble] at hexec
  refine ⟨preamble n.toNat, hexec, preamble_length _, fun k => preamble_getElem?, ?_, ?_, preamble_getLast?_of_odd⟩
  · rintro rfl
    rfl
  · rintro rfl
    rfl

/-- Settles O22, from the index of a word's bits. -/
theorem wordBitsAreMsbFirst : Obligations.WordBitsAreMsbFirst :=
  ⟨fun w => ⟨wordToBits_length w, fun _ => wordToBits_getElem? w⟩, by decide⟩

/-- Settles O23: a batch is 17 words of the stream, SYNC the first of them, and a word is 32 bits. -/
theorem bitsAssembleStreamIndex : Obligations.BitsAssembleStreamIndex := by
  refine fun batches n invert s => ⟨fun hn => exec_bitsAssemble_allocFail hn batches invert, fun hn h16 => ?_⟩
  refine ⟨bitsAssemble batches n invert, exec_bitsAssemble hn batches invert, ?_,
    fun k => bitsAssemble_getElem?_preamble batches n invert, fun b hb i hi => ⟨?_, fun slot hs => ?_⟩⟩
  · rw [bitsAssemble_length, streamWords_length h16, ← Nat.mul_assoc]
  · have hindex : n.toNat + 544 * b + (31 - i) = n.toNat + (32 * (17 * b + 0) + (31 - i)) := by omega
    rw [hindex]
    exact bitsAssemble_getElem?_of_word (streamWords_getElem? h16 hb (by decide)) n invert hi
  · have hslot : slot < 16 := h16 _ (List.getElem_mem hb) ▸ hs
    have hindex : n.toNat + 544 * b + 32 * (slot + 1) + (31 - i) =
        n.toNat + (32 * (17 * b + (slot + 1)) + (31 - i)) := by omega
    have hword : (streamWords batches)[17 * b + (slot + 1)]? = some batches[b][slot] := by
      rw [streamWords_getElem? h16 hb (by omega), List.getElem?_cons_succ, List.getElem?_eq_getElem hs]
    rw [hindex]
    exact bitsAssemble_getElem?_of_word hword n invert hi

/-- Settles O24: `invert` acts on the bits after the preamble alone, on each of them as a complement. -/
theorem inversionComplementsTheWordsOnly : Obligations.InversionComplementsTheWordsOnly := by
  intro batches n s hn
  refine ⟨bitsAssemble batches n false, bitsAssemble batches n true, exec_bitsAssemble hn batches false,
    exec_bitsAssemble hn batches true, ?_, ?_, fun k hk => ?_, fun k hk => ?_⟩
  · rw [bitsAssemble_length, bitsAssemble_length]
  · rw [bitsAssemble_length]
    exact Nat.le_add_right _ _
  · rw [bitsAssemble_getElem?_preamble _ _ _ hk, bitsAssemble_getElem?_preamble _ _ _ hk]
  · obtain ⟨j, rfl⟩ := Nat.exists_eq_add_of_le hk
    simp only [bitsAssemble_getElem?_words, Option.map_map, Function.comp_def, Bool.false_xor, Bool.true_xor]

end Sys2Proof.Machine
end

section
/-! PROOF. The ways out of the body of `transmit` (spec/43_waveform_transmitter.md R180 to R182): each ends in the
write of the idle state to the job's pin, when that pin exists. -/

namespace Sys2Proof.Machine

/-- Whether the configuration is skipped, done or fails, it leaves the frame alone (R179). -/
theorem configure_frame (cfg : Cfg) (hw : HwOutcome) (s : State) : LineFrame s (configure cfg hw s).1 := by
  cases hc : (configure cfg hw s).2 with
  | true => exact (configure_true hc).1
  | false => exact (configure_false hc).1

theorem played_frame (job : Job) (ds : List Desc) (k : Nat) (s : State) : LineFrame s (played job ds k s) :=
  (startLine_spec job ds s).1.trans (emit_spec job ds k _).1

theorem reinitialise_frame (job : Job) (hw : HwOutcome) (s : State) : LineFrame s (reinitialise job hw s) :=
  reinitialise_eq job hw s ▸ setLastCfg_frame _ s

/-- Which pins exist is a matter of the parameters, which the frame keeps. -/
theorem TxFrame.pinExists {s t : State} (hf : TxFrame s t) {p : Gpio} (hv : gpioValid s p = true) :
    gpioValid t p = true :=
  gpioValid_congr hf.params p ▸ hv

/-! ### The last write of the body -/

/-- `t` is some state after the write of `job`'s idle state, as `s` has it, to the job's pin. -/
def IdleForcedLast (job : Job) (s t : State) : Prop := ∃ u, t = setPin job.gpio (jobIdle job s) u

/-- The idle state is a matter of the parameters, which the frame keeps. -/
theorem IdleForcedLast.of_frame {job : Job} {s t u : State} (hf : TxFrame s t) (h : IdleForcedLast job t u) :
    IdleForcedLast job s u := by
  rwa [IdleForcedLast, jobIdle_congr hf.params.symm job]

theorem IdleForcedLast.pinRead_eq {job : Job} {s t : State} (h : IdleForcedLast job s t) :
    pinRead t.pin job.gpio.toNat = jobIdle job s := by
  obtain ⟨u, rfl⟩ := h
  rw [setPin_pin, pinRead_pinWrite, if_pos rfl]

theorem IdleForcedLast.getLast?_wave {job : Job} {s t : State} (h : IdleForcedLast job s t) :
    t.wave.getLast? = some (.set job.gpio (jobIdle job s)) := by
  obtain ⟨u, rfl⟩ := h
  exact List.getLast?_concat

theorem assertIdle_idleForcedLast {job : Job} {s : State} (hv : gpioValid s job.gpio = true) :
    IdleForcedLast job s (assertIdle job s) :=
  ⟨s, (assertIdle_spec job s).2.2.1 hv⟩

/-- The re-initialisation attempt comes before the forced idle state (R182). -/
theorem failTransmit_idleForcedLast (cause : HwCause) {job : Job} (hw : HwOutcome) {s : State}
    (hv : gpioValid s job.gpio = true) : IdleForcedLast job s (failTransmit cause job hw s).1 :=
  have hf := (reinitialise_frame job hw s).toTxFrame
  (assertIdle_idleForcedLast (hf.pinExists hv)).of_frame hf

theorem playConfigured_idleForcedLast {job : Job} (ds : List Desc) (hw : HwOutcome) {s : State}
    (hv : gpioValid s job.gpio = true) : IdleForcedLast job s (playConfigured job ds hw s).1 := by
  have fail (cause : HwCause) (k : Nat) : IdleForcedLast job s (failTransmit cause job hw (played job ds k s)).1 := by
    have hf := (played_frame job ds k s).toTxFrame
    exact (failTransmit_idleForcedLast cause hw (hf.pinExists hv)).of_frame hf
  rcases playConfigured_cases job ds hw s with ⟨-, he⟩ | ⟨-, -, he⟩ | ⟨-, -, he⟩
  · exact he ▸ fail _ _
  · exact he ▸ fail _ _
  · exact he ▸ ⟨_, rfl⟩

theorem playWaveform_idleForcedLast {job : Job} (ds : List Desc) (hw : HwOutcome) {s : State}
    (hv : gpioValid s job.gpio = true) : IdleForcedLast job s (playWaveform job ds hw s).1 := by
  have hf := (configure_frame (jobCfg job) hw s).toTxFrame
  unfold playWaveform
  split
  · exact (playConfigured_idleForcedLast ds hw (hf.pinExists hv)).of_frame hf
  · exact (failTransmit_idleForcedLast .configFail hw (hf.pinExists hv)).of_frame hf

theorem transmitBody_idleForcedLast {job : Job} {s : State} {r : State × TxResult} (hv : gpioValid s job.gpio = true)
    (h : transmitBody job s = .ok r) : IdleForcedLast job s r.1 := by
  rcases transmitBody_ok_cases h with ⟨-, rfl⟩ | ⟨-, -, T, -, rfl⟩
  · exact assertIdle_idleForcedLast hv
  · have hf := afterDraw_frame s
    exact (playWaveform_idleForcedLast _ _ (hf.pinExists hv)).of_frame hf

/-! ### The two ways into the body -/

/-- On an idle transmitter `TRANSMIT` is the body between `Busy` and `Idle`, and the answer (R180). -/
theorem exec_transmit_of_idle {job : Job} {s t : State} (hidle : s.txState = .idle)
    (h : exec (.transmit job) s = .next t) :
    ∃ r, transmitBody job (setTxState .busy s) = .ok r ∧ t = answer (.tx r.2) (returnIdle r.1) := by
  have hbusy : s.txState ≠ .busy := by simp [hidle]
  simp only [exec, execTransmit, if_neg hbusy] at h
  split at h
  · cases h
  · rename_i r hr
    cases h
    exact ⟨r, hr, rfl⟩

/-- In the phase of a job the consumer's turn is the finish step of that job (R207). -/
theorem consumerTurn_of_transmitting {job : Job} {s t : State} (hphase : s.phase = .transmitting job)
    (h : consumerTurn s = .next t) :
    ∃ r, transmitBody job s = .ok r ∧ t = notify (noteOf r.2) (setPhase .waiting (returnIdle r.1)) := by
  simp only [consumerTurn, hphase, consumerFinish] at h
  split at h
  · cases h
  · rename_i r hr
    cases h
    exact ⟨r, hr, rfl⟩

/-- Settles O36: the last write of the body is the idle state, and both ways into the body write no pin after it. -/
theorem everyTransmitForcesIdle : Obligations.EveryTransmitForcesIdle := by
  intro s t job hv hrun
  obtain ⟨hidle, h⟩ | ⟨hphase, h⟩ := hrun
  · obtain ⟨r, hr, rfl⟩ := exec_transmit_of_idle hidle h
    have hlast : IdleForcedLast job (setTxState .busy s) r.1 := transmitBody_idleForcedLast hv hr
    exact ⟨hlast.pinRead_eq, hlast.getLast?_wave⟩
  · obtain ⟨r, hr, rfl⟩ := consumerTurn_of_transmitting hphase h
    have hlast : IdleForcedLast job s r.1 := transmitBody_idleForcedLast hv hr
    exact ⟨hlast.pinRead_eq, hlast.getLast?_wave⟩

end Sys2Proof.Machine
end

section
/-! PROOF. What one agent does in one step (spec/20_memory.md R63), as one list of cases, and what every case does to the
streams, the parameters and the count of jobs (spec/10_state.md R26, R27; spec/44_scheduler.md R207, R208). -/

namespace Sys2Proof.Machine

/-! ### The atomic steps -/

/-- What an agent's atomic step makes of `s`, initialisation apart: the consumer blocked, its start and its finish step
(44_scheduler.md R205 to R207), an operation that only answers, one that queues a job, and `TRANSMIT` of an idle
transmitter (43_waveform_transmitter.md R180). -/
inductive AgentStep (s : State) : State → Prop where
  | blocked (hphase : s.phase = .waiting) (hqueue : s.queue = []) : AgentStep s s
  | start {job : Job} {later : List Job} (hphase : s.phase = .waiting) (hqueue : s.queue = job :: later) :
      AgentStep s (consumerStart job later s)
  | finish {job : Job} {r : State × TxResult} (hphase : s.phase = .transmitting job) (hbody : transmitBody job s = .ok r) :
      AgentStep s (notify (noteOf r.2) (setPhase .waiting (returnIdle r.1)))
  | answers {a : Answer} (ha : isQueued a = false) : AgentStep s (answer a s)
  | queues {job : Job} {a : Answer} (ha : isQueued a = true) (hroom : s.queue.length ≠ s.params.queueDepth) :
      AgentStep s (answer a (setQueue (s.queue ++ [job]) s))
  | transmits {job : Job} {r : State × TxResult} (hidle : s.txState = .idle)
      (hbody : transmitBody job (setTxState .busy s) = .ok r) : AgentStep s (answer (.tx r.2) (returnIdle r.1))

theorem agentStep_of_consumerTurn {s t : State} (h : consumerTurn s = .next t) : AgentStep s t := by
  obtain ⟨hphase, hqueue, rfl⟩ | ⟨job, later, hphase, hqueue, rfl⟩ | ⟨job, r, hphase, hbody, rfl⟩ := consumerTurn_cases h
  · exact .blocked hphase hqueue
  · exact .start hphase hqueue
  · exact .finish hphase hbody

theorem agentStep_of_exec {i : Instr} {s t : State} (h : exec i s = .next t) : AgentStep s t := by
  obtain ⟨a, ha, rfl⟩ | ⟨job, a, -, ha, hroom, rfl⟩ | ⟨job, r, -, hidle, hbody, rfl⟩ := exec_cases h
  · exact .answers ha
  · exact .queues ha hroom
  · exact .transmits hidle hbody

/-- A step is an initialisation, or an agent's atomic step on the state whose next input was taken. -/
theorem step_reset_or_agentStep {s t : State} (h : step s = .next t) :
    (∃ rest, s.inputs = .reset :: rest ∧ t = reinitCore (setInputs rest s)) ∨
    ∃ rest, AgentStep (setInputs rest s) t := by
  obtain ⟨-, h⟩ | ⟨rest, -, h⟩ | hreset | ⟨-, -, rest, i, -, -, h⟩ | ⟨-, -, rest, -, -, rfl⟩ := step_cases h
  · exact .inr ⟨s.inputs, agentStep_of_consumerTurn h⟩
  · exact .inr ⟨rest, agentStep_of_consumerTurn h⟩
  · exact .inl hreset
  · exact .inr ⟨rest, agentStep_of_exec h⟩
  · exact .inr ⟨rest, .answers rfl⟩

/-! ### Every `Queued` result is accounted for (44_scheduler.md R208) -/

theorem queuedCount_concat (l : List Answer) (a : Answer) :
    queuedCount (l ++ [a]) = queuedCount l + if isQueued a then 1 else 0 := by
  simp [queuedCount, List.countP_singleton]

/-- No field that the count of R208 reads is touched by the body of `transmit`. -/
theorem TxFrame.accounted {s t : State} (hf : TxFrame s t) (h : Accounted s) : Accounted t := by
  rwa [Accounted, hf.answers, hf.notes, hf.queue, hf.phase]

theorem Accounted.answer {s : State} (h : Accounted s) {a : Answer} (ha : isQueued a = false) :
    Accounted (answer a s) := by
  simpa [Accounted, queuedCount_concat, ha] using h

theorem AgentStep.accounted {s t : State} (hstep : AgentStep s t) (h : Accounted s) : Accounted t := by
  cases hstep with
  | blocked => exact h
  | start hphase hqueue =>
    simp only [Accounted, hphase, hqueue, List.length_cons, inFlight] at h
    simp [Accounted, consumerStart, inFlight, h, Nat.add_assoc]
  | @finish job r hphase hbody =>
    have hbodyAcc : Accounted r.1 := (transmitBody_frame hbody).1.accounted h
    have hflying : r.1.phase = .transmitting job := (transmitBody_frame hbody).1.phase.trans hphase
    simp only [Accounted, hflying, inFlight] at hbodyAcc
    simp [Accounted, hbodyAcc, inFlight, Nat.add_right_comm]
  | answers ha => exact h.answer ha
  | queues ha =>
    rw [Accounted] at h
    simp [Accounted, queuedCount_concat, ha, h, Nat.add_assoc, Nat.add_comm 1]
  | @transmits job r _ hbody =>
    have hbodyAcc : Accounted r.1 := (transmitBody_frame hbody).1.accounted h
    exact Accounted.answer (s := returnIdle r.1) hbodyAcc rfl

/-- Settles O50: an initialisation empties both sides of the count, every other step changes both sides alike. -/
theorem everyQueuedJobIsAccountedFor : Obligations.EveryQueuedJobIsAccountedFor := by
  intro s t h hstep
  obtain ⟨rest, -, rfl⟩ | ⟨rest, hagent⟩ := step_reset_or_agentStep hstep
  · rfl
  · exact hagent.accounted h

/-! ### The streams and the parameters (10_state.md R26, R27, 70_reset_and_hazards.md R251 (e)) -/

theorem AgentStep.params {s t : State} (hstep : AgentStep s t) : t.params = s.params := by
  cases hstep with
  | blocked => rfl
  | start => rfl
  | finish _ hbody => exact (transmitBody_frame hbody).1.params
  | answers => rfl
  | queues => rfl
  | transmits _ hbody => exact (transmitBody_frame hbody).1.params

theorem AgentStep.wave_prefix {s t : State} (hstep : AgentStep s t) : s.wave <+: t.wave := by
  cases hstep with
  | blocked => exact List.prefix_refl _
  | start => exact List.prefix_refl _
  | finish _ hbody => exact (transmitBody_frame hbody).2.1
  | answers => exact List.prefix_refl _
  | queues => exact List.prefix_refl _
  | transmits _ hbody => exact (transmitBody_frame hbody).2.1

theorem AgentStep.answers_prefix {s t : State} (hstep : AgentStep s t) : s.answers <+: t.answers := by
  cases hstep with
  | blocked => exact List.prefix_refl _
  | start => exact List.prefix_refl _
  | @finish _ r _ hbody =>
    have hsame : r.1.answers = s.answers := (transmitBody_frame hbody).1.answers
    exact ⟨[], by simp [hsame]⟩
  | answers => exact List.prefix_append _ _
  | queues => exact List.prefix_append _ _
  | @transmits _ r _ hbody =>
    have hsame : r.1.answers = s.answers := (transmitBody_frame hbody).1.answers
    exact ⟨[.tx r.2], by simp [hsame]⟩

/-- A notification is appended by the finish step, which ends the phase of its job, and by nothing else (R207). -/
theorem AgentStep.notes {s t : State} (hstep : AgentStep s t) :
    ∃ new : List Note, t.notes = s.notes ++ new ∧
      new.length = if s.phase ≠ .waiting ∧ t.phase = .waiting then 1 else 0 := by
  cases hstep with
  | blocked hphase => exact ⟨[], by simp, by simp [hphase]⟩
  | start hphase => exact ⟨[], by simp [consumerStart], by simp [hphase]⟩
  | @finish _ r hphase hbody =>
    have hsame : r.1.notes = s.notes := (transmitBody_frame hbody).1.notes
    exact ⟨[noteOf r.2], by simp [hsame], by simp [hphase]⟩
  | answers => exact ⟨[], by simp, by simp⟩
  | queues => exact ⟨[], by simp, by simp⟩
  | @transmits _ r _ hbody =>
    have hnotes : r.1.notes = s.notes := (transmitBody_frame hbody).1.notes
    have hphase : r.1.phase = s.phase := (transmitBody_frame hbody).1.phase
    exact ⟨[], by simp [hnotes], by simp [hphase]⟩

/-- Settles O49, stream by stream over the agents' atomic steps. -/
theorem streamsOnlyGrow : Obligations.StreamsOnlyGrow := by
  intro s t hstep hnoReset
  obtain ⟨rest, hreset, -⟩ | ⟨rest, hagent⟩ := step_reset_or_agentStep hstep
  · exact absurd hreset (hnoReset rest)
  · obtain ⟨new, hnotes, hlength⟩ := hagent.notes
    refine ⟨⟨new, hnotes.symm⟩, hagent.wave_prefix, hagent.answers_prefix, hagent.params, ?_⟩
    rw [hnotes, List.length_append, hlength]
    rfl

end Sys2Proof.Machine
end

section
/-! PROOF. The invariant of every reachable state (spec/10_state.md R34): its half about pins and peripheral across the body
of `transmit` (spec/43_waveform_transmitter.md R179 to R182), then the whole of it across every step. -/

namespace Sys2Proof.Machine

/-! ### Pins and peripheral -/

/-- The invariant's half about pins, peripheral and log. The pins in `driven` need not be idle: while a job is played, its
own pin is not. -/
structure LineInv (driven : Set Nat) (s : State) : Prop where
  canonical : PinMap.wf s.pin = true
  pinsIdle : ∀ e ∈ s.pin, e.1 ∉ driven → ∃ mode idleHigh, e.2 = idlePolicy s.params.idlePolicy mode idleHigh
  pinsExist : ∀ e ∈ s.pin, s.params.gpioPins.contains e.1 = true
  cfgExists : ∀ c, s.lastCfg = some c → gpioValid s c.pin = true
  logged : ∀ p, pinRead s.pin p = replay s.wave p

theorem LineInv.of_eq {driven : Set Nat} {s t : State} (h : LineInv driven s) (hpin : t.pin = s.pin)
    (hparams : t.params = s.params) (hcfg : t.lastCfg = s.lastCfg) (hwave : t.wave = s.wave) : LineInv driven t where
  canonical := hpin ▸ h.canonical
  pinsIdle := by rw [hpin, hparams]; exact h.pinsIdle
  pinsExist := by rw [hpin, hparams]; exact h.pinsExist
  cfgExists := by rw [hcfg]; exact fun c hc => gpioValid_congr hparams c.pin ▸ h.cfgExists c hc
  logged := by rw [hpin, hwave]; exact h.logged

theorem LineInv.mono {driven driven' : Set Nat} {s : State} (h : LineInv driven s) (hsub : driven ⊆ driven') :
    LineInv driven' s :=
  { h with pinsIdle := fun e he hout => h.pinsIdle e he fun hin => hout (hsub hin) }

theorem replay_concat (wave : List WaveItem) (item : WaveItem) (p : Nat) :
    replay (wave ++ [item]) p = replayItem p (replay wave p) item :=
  List.foldl_concat ..

/-- A logged write keeps the half: the pin exists, and it is to be idle only if an idle state is written. -/
theorem LineInv.write {driven driven' : Set Nat} {s : State} {p : Gpio} {v : PinState} {item : WaveItem}
    (h : LineInv driven s) (hitem : ∀ q st, replayItem q st item = if p.toNat = q then v else st)
    (hrest : driven ⊆ insert p.toNat driven')
    (hwritten : v ≠ .hiZ → gpioValid s p = true ∧
      (p.toNat ∉ driven' → ∃ mode idleHigh, v = idlePolicy s.params.idlePolicy mode idleHigh)) :
    LineInv driven' (logWave [item] (writePin p v s)) where
  canonical := pinWrite_wf _ _ h.canonical
  pinsIdle := by
    intro e he hout
    obtain ⟨hv, rfl⟩ | ⟨hold, hne⟩ := mem_pinWrite.mp he
    · exact (hwritten hv).2 hout
    · exact h.pinsIdle e hold fun hin => (hrest hin).elim hne hout
  pinsExist := by
    intro e he
    obtain ⟨hv, rfl⟩ | ⟨hold, -⟩ := mem_pinWrite.mp he
    · exact (hwritten hv).1
    · exact h.pinsExist e hold
  cfgExists := h.cfgExists
  logged := by
    intro q
    rw [logWave_pin, writePin_pin, logWave_wave, writePin_wave, pinRead_pinWrite, replay_concat, hitem, h.logged]
    simp only [eq_comm]

theorem LineInv.setPin_hiZ {driven : Set Nat} {s : State} (h : LineInv driven s) (p : Gpio) :
    LineInv driven (setPin p .hiZ s) :=
  h.write (fun _ _ => rfl) (Set.subset_insert _ _) fun hv => absurd rfl hv

/-- The forced idle state ends the driving of a pin (R181). -/
theorem LineInv.setPin_idle {job : Job} {s : State} (h : LineInv {job.gpio.toNat} s) (hv : gpioValid s job.gpio = true) :
    LineInv ∅ (setPin job.gpio (jobIdle job s) s) :=
  h.write (fun _ _ => rfl) (by simp) fun _ => ⟨hv, fun _ => ⟨job.mode, job.idleHigh, rfl⟩⟩

theorem LineInv.setLastCfg {driven : Set Nat} {s : State} (h : LineInv driven s) {c : Option Cfg}
    (hc : ∀ cfg, c = some cfg → gpioValid s cfg.pin = true) : LineInv driven (setLastCfg c s) :=
  ⟨h.canonical, h.pinsIdle, h.pinsExist, hc, h.logged⟩

theorem LineInv.afterDraw {driven : Set Nat} {s : State} (h : LineInv driven s) : LineInv driven (afterDraw s) :=
  h.of_eq (afterDraw_pin s) (afterDraw_params s) (afterDraw_lastCfg s) (afterDraw_wave s)

/-! ### The parts of the body (R177, R179, R180, R182) -/

theorem LineInv.releaseOld {driven : Set Nat} {s : State} (h : LineInv driven s) (cfg : Cfg) :
    LineInv driven (releaseOld cfg s) := by
  unfold Machine.releaseOld
  split
  · split
    · exact h
    · exact h.setPin_hiZ _
  · exact h

theorem LineInv.configure {driven : Set Nat} {s : State} (h : LineInv driven s) (cfg : Cfg) (hw : HwOutcome) :
    LineInv driven (configure cfg hw s).1 := by
  have hreleased := h.releaseOld cfg
  have hparams : (Machine.releaseOld cfg s).params = s.params := (releaseOld_spec cfg s).1.params
  obtain ⟨-, he⟩ | ⟨-, -, he⟩ | ⟨-, hv, -, he⟩ := configure_cases cfg hw s
  · exact he ▸ h
  · exact he ▸ hreleased.setLastCfg (by simp)
  · refine he ▸ hreleased.setLastCfg ?_
    rintro _ ⟨⟩
    exact gpioValid_congr hparams cfg.pin ▸ hv

/-- While its job is played, a pin that exists may be written to any state. -/
theorem LineInv.write_driven {job : Job} {s : State} {v : PinState} {item : WaveItem}
    (h : LineInv {job.gpio.toNat} s) (hv : gpioValid s job.gpio = true)
    (hitem : ∀ q st, replayItem q st item = if job.gpio.toNat = q then v else st) :
    LineInv {job.gpio.toNat} (logWave [item] (writePin job.gpio v s)) :=
  h.write hitem (Set.subset_insert _ _) fun _ => ⟨hv, fun hout => absurd rfl hout⟩

theorem LineInv.startLine {job : Job} {s : State} (h : LineInv {job.gpio.toNat} s) (hv : gpioValid s job.gpio = true)
    (ds : List Desc) : LineInv {job.gpio.toNat} (startLine job ds s) := by
  cases ds with
  | nil => exact h
  | cons d ds => exact h.write_driven hv fun _ _ => rfl

theorem LineInv.foldl_playPulse {job : Job} {s : State} (h : LineInv {job.gpio.toNat} s)
    (hv : gpioValid s job.gpio = true) (ds : List Desc) : LineInv {job.gpio.toNat} (ds.foldl (playPulse job) s) := by
  induction ds generalizing s with
  | nil => exact h
  | cons d ds ih => exact ih (h.write_driven hv fun _ _ => rfl) hv

theorem LineInv.logWave_partialPulse {driven : Set Nat} {s : State} (h : LineInv driven s) (p : Gpio) :
    LineInv driven (logWave [.partialPulse p] s) :=
  { h with logged := fun q => by rw [logWave_pin, logWave_wave, replay_concat]; exact h.logged q }

theorem LineInv.emit {job : Job} {s : State} (h : LineInv {job.gpio.toNat} s) (hv : gpioValid s job.gpio = true)
    (ds : List Desc) (k : Nat) : LineInv {job.gpio.toNat} (emit job ds k s) := by
  have hpulses := h.foldl_playPulse hv (ds.take k)
  unfold Machine.emit
  split
  · exact hpulses.logWave_partialPulse _
  · exact hpulses

theorem LineInv.played {job : Job} {s : State} (h : LineInv ∅ s) (hv : gpioValid s job.gpio = true) (ds : List Desc)
    (k : Nat) : LineInv {job.gpio.toNat} (played job ds k s) :=
  ((h.mono (Set.empty_subset _)).startLine hv ds).emit ((startLine_spec job ds s).1.toTxFrame.pinExists hv) ds k

/-- A pin that does not exist is not listed, so the forced idle state leaves no pin driven in either case (R182). -/
theorem LineInv.assertIdle {job : Job} {s : State} (h : LineInv {job.gpio.toNat} s) : LineInv ∅ (assertIdle job s) := by
  obtain ⟨-, -, hexists, hmissing⟩ := assertIdle_spec job s
  by_cases hv : gpioValid s job.gpio = true
  · exact hexists hv ▸ h.setPin_idle hv
  · rw [hmissing (by simpa using hv)]
    have hlisted : ∀ e ∈ s.pin, e.1 ≠ job.gpio.toNat := by
      rintro e he hpin
      exact hv (by rw [gpioValid, ← hpin]; exact h.pinsExist e he)
    exact { h with pinsIdle := fun e he _ => h.pinsIdle e he (hlisted e he) }

theorem LineInv.failTransmit {job : Job} {s : State} (h : LineInv {job.gpio.toNat} s) (cause : HwCause) (hw : HwOutcome) :
    LineInv ∅ (failTransmit cause job hw s).1 := by
  rw [Machine.failTransmit, reinitialise_eq]
  refine (h.setLastCfg fun cfg hc => ?_).assertIdle
  split at hc
  case isTrue hreinit => cases hc; exact hreinit.1
  case isFalse => cases hc

theorem LineInv.playConfigured {job : Job} {s : State} (h : LineInv ∅ s) (hv : gpioValid s job.gpio = true)
    (ds : List Desc) (hw : HwOutcome) : LineInv ∅ (playConfigured job ds hw s).1 := by
  obtain ⟨-, he⟩ | ⟨-, -, he⟩ | ⟨-, -, he⟩ := playConfigured_cases job ds hw s
  · exact he ▸ (h.played hv ds _).failTransmit _ hw
  · exact he ▸ (h.played hv ds _).failTransmit _ hw
  · have hf := (played_frame job ds ds.length s).toTxFrame
    rw [he, jobIdle_congr hf.params.symm job]
    exact (h.played hv ds _).setPin_idle (hf.pinExists hv)

theorem LineInv.playWaveform {job : Job} {s : State} (h : LineInv ∅ s) (ds : List Desc) (hw : HwOutcome) :
    LineInv ∅ (playWaveform job ds hw s).1 := by
  have hconfigured := h.configure (jobCfg job) hw
  unfold Machine.playWaveform
  split
  case isTrue hdone => exact hconfigured.playConfigured (hconfigured.cfgExists _ (configure_true hdone).2.1) ds hw
  case isFalse => exact (hconfigured.mono (Set.empty_subset _)).failTransmit _ hw

theorem LineInv.transmitBody {job : Job} {s : State} {r : State × TxResult} (h : LineInv ∅ s)
    (hbody : transmitBody job s = .ok r) : LineInv ∅ r.1 := by
  obtain ⟨-, rfl⟩ | ⟨-, -, T, -, rfl⟩ := transmitBody_ok_cases hbody
  · exact (h.mono (Set.empty_subset _)).assertIdle
  · exact h.afterDraw.playWaveform _ _

/-! ### The whole invariant -/

theorem CoreInv.lineInv {s : State} (h : CoreInv s) : LineInv ∅ s :=
  ⟨h.canonical, fun e he _ => h.pinsIdle e he, h.pinsExist, h.cfgExists, h.logged⟩

theorem AgentStep.lineInv {s t : State} (hstep : AgentStep s t) (h : LineInv ∅ s) : LineInv ∅ t := by
  cases hstep with
  | blocked => exact h
  | start => exact h.of_eq rfl rfl rfl rfl
  | finish _ hbody => exact (h.transmitBody hbody).of_eq rfl rfl rfl rfl
  | answers => exact h.of_eq rfl rfl rfl rfl
  | queues => exact h.of_eq rfl rfl rfl rfl
  | transmits _ hbody =>
    have hbusy : LineInv ∅ (setTxState .busy s) := h.of_eq rfl rfl rfl rfl
    exact (hbusy.transmitBody hbody).of_eq rfl rfl rfl rfl

/-- R34 (i): a job is queued only where there is room, and no other step makes the queue longer. -/
theorem AgentStep.queue_le {s t : State} (hstep : AgentStep s t) (h : s.queue.length ≤ s.params.queueDepth) :
    t.queue.length ≤ s.params.queueDepth := by
  cases hstep with
  | blocked => exact h
  | start _ hqueue =>
    rw [hqueue, List.length_cons] at h
    exact (Nat.le_succ _).trans h
  | @finish _ r _ hbody =>
    have hsame : r.1.queue = s.queue := (transmitBody_frame hbody).1.queue
    simpa [hsame] using h
  | answers => exact h
  | queues _ hroom =>
    rw [answer_queue, setQueue_queue, List.length_append, List.length_singleton]
    omega
  | @transmits _ r _ hbody =>
    have hsame : r.1.queue = s.queue := (transmitBody_frame hbody).1.queue
    simpa [hsame] using h

/-- R34 (ii): the transmitter is `Busy` from the start to the finish step; `TRANSMIT` is over within its own step. -/
theorem AgentStep.busy_iff {s t : State} (hstep : AgentStep s t) (h : s.txState = .busy ↔ s.phase ≠ .waiting) :
    t.txState = .busy ↔ t.phase ≠ .waiting := by
  cases hstep with
  | blocked => exact h
  | start => simp [consumerStart]
  | finish => simp
  | answers => exact h
  | queues => exact h
  | @transmits _ r hidle hbody =>
    have hphase : r.1.phase = s.phase := (transmitBody_frame hbody).1.phase
    simpa [hphase, hidle] using h

theorem AgentStep.coreInv {s t : State} (hstep : AgentStep s t) (h : CoreInv s) : CoreInv t := by
  obtain ⟨canonical, pinsIdle, pinsExist, cfgExists, logged⟩ := hstep.lineInv h.lineInv
  have hparams := hstep.params
  exact
    { params := hparams ▸ h.params
      queue := hparams ▸ hstep.queue_le h.queue
      busy := hstep.busy_iff h.busy
      canonical := canonical
      pinsIdle := fun e he => pinsIdle e he (Set.notMem_empty _)
      pinsExist := pinsExist
      cfgExists := cfgExists
      accounted := hstep.accounted h.accounted
      logged := logged }

/-- After initialisation nothing but the parameters is left to ask for (70_reset_and_hazards.md R250). -/
theorem coreInv_reinitCore {s : State} (h : s.params.wf = true) : CoreInv (reinitCore s) where
  params := h
  queue := Nat.zero_le _
  busy := by simp [reinitCore, State.reset]
  canonical := rfl
  pinsIdle := by simp [reinitCore, State.reset]
  pinsExist := by simp [reinitCore, State.reset]
  cfgExists := by simp [reinitCore, State.reset]
  accounted := rfl
  logged := fun _ => rfl

theorem CoreInv.setInputs {s : State} (h : CoreInv s) (l : List Input) : CoreInv (setInputs l s) :=
  { h with }

/-- Settles O3: an initialisation ends in a state that meets the invariant, and every agent's atomic step keeps it. -/
theorem everyStepKeepsInvariant : Obligations.EveryStepKeepsInvariant := by
  intro s t h hstep
  obtain ⟨rest, -, rfl⟩ | ⟨rest, hagent⟩ := step_reset_or_agentStep hstep
  · exact coreInv_reinitCore h.params
  · exact hagent.coreInv (h.setInputs rest)

end Sys2Proof.Machine
end

section
/-! PROOF. The operations of the Scheduler (spec/44_scheduler.md R200, R203, R204): what each answers, and what a queued page
is (spec/42_bitstream_assembler.md R162). -/

namespace Sys2Proof.Machine

/-! ### `ENQUEUE` and `STATUS` (R200, R204) -/

theorem enqueueJob_of_full {s : State} (h : s.queue.length = s.params.queueDepth) (job : Job) :
    enqueueJob job s = (s, .busy) :=
  if_pos (decide_eq_true h)

theorem enqueueJob_of_room {s : State} (h : s.queue.length ≠ s.params.queueDepth) (job : Job) :
    enqueueJob job s = (setQueue (s.queue ++ [job]) s, .queued) :=
  if_neg (by simpa [queueFull] using h)

theorem exec_enqueue_of_full {s : State} (h : s.queue.length = s.params.queueDepth) (job : Job) :
    exec (.enqueue job) s = .next { s with answers := s.answers ++ [.enqueue .busy] } := by
  rw [exec, execEnqueue, enqueueJob_of_full h]
  rfl

theorem exec_enqueue_of_room {s : State} (h : s.queue.length ≠ s.params.queueDepth) (job : Job) :
    exec (.enqueue job) s =
      .next { s with queue := s.queue ++ [job], answers := s.answers ++ [.enqueue .queued] } := by
  rw [exec, execEnqueue, enqueueJob_of_room h]
  rfl

/-- Settles O39, by whether the queue has room. -/
theorem enqueueAppendsOrAnswersBusy : Obligations.EnqueueAppendsOrAnswersBusy := by
  refine ⟨fun s job => ⟨fun h => exec_enqueue_of_full h job, fun h => exec_enqueue_of_room h job⟩, rfl, ?_⟩
  intro s j1 j2 j3 hdepth hqueue
  exact exec_enqueue_of_full (by rw [hqueue, hdepth]; rfl) j3

theorem exec_status (s : State) :
    exec .status s = .next { s with answers := s.answers ++ [.status s.txState] } := rfl

/-! ### `ENQUEUE_TRANSMISSION` (R203, 60_exceptions.md R228) -/

theorem pageInvalid_iff {p : Params} {r : PageRequest} : pageInvalid p r = true ↔ outsideLegalValues p r := by
  simp [pageInvalid, outsideLegalValues, Config.baudSet]

theorem exec_enqueueTransmission_invalid {s : State} {r : PageRequest} (h : outsideLegalValues s.params r) :
    exec (.enqueueTransmission r) s = .next { s with answers := s.answers ++ [.page .invalid false] } :=
  if_pos (pageInvalid_iff.mpr h)

theorem exec_enqueueTransmission_allocFail {s : State} {r : PageRequest} (h : ¬ outsideLegalValues s.params r)
    (halloc : s.params.preambleMax < r.preambleBits.toNat) :
    exec (.enqueueTransmission r) s = .next { s with answers := s.answers ++ [.page .allocFail false] } := by
  rw [exec, execEnqueueTransmission, if_neg (mt pageInvalid_iff.mp h), if_pos (allocFails_iff.mpr halloc)]
  rfl

theorem exec_enqueueTransmission_busy {s : State} {r : PageRequest} (h : ¬ outsideLegalValues s.params r)
    (halloc : r.preambleBits.toNat ≤ s.params.preambleMax) (hfull : s.queue.length = s.params.queueDepth) :
    exec (.enqueueTransmission r) s = .next { s with answers := s.answers ++ [.page .busy false] } := by
  rw [exec, execEnqueueTransmission, if_neg (mt pageInvalid_iff.mp h), if_neg (mt allocFails_iff.mp halloc.not_gt),
    enqueueJob_of_full hfull]
  rfl

theorem exec_enqueueTransmission_queued {s : State} {r : PageRequest} (h : ¬ outsideLegalValues s.params r)
    (halloc : r.preambleBits.toNat ≤ s.params.preambleMax) (hroom : s.queue.length ≠ s.params.queueDepth) :
    exec (.enqueueTransmission r) s = .next { s with
      queue := s.queue ++ [pageJob r]
      answers := s.answers ++ [.page .queued (pageTruncated r)] } := by
  rw [exec, execEnqueueTransmission, if_neg (mt pageInvalid_iff.mp h), if_neg (mt allocFails_iff.mp halloc.not_gt),
    enqueueJob_of_room hroom]
  rfl

/-- Settles O40, one lemma per result; the queued job is built of what the two component operations answer. -/
theorem enqueueTransmissionResults : Obligations.EnqueueTransmissionResults := fun s r =>
  ⟨exec_enqueueTransmission_invalid, exec_enqueueTransmission_allocFail, exec_enqueueTransmission_busy,
    fun h halloc hroom => ⟨_, _, _, exec_batchBuild r.capcode r.functionBits r.message s,
      exec_bitsAssemble halloc _ r.invert, exec_enqueueTransmission_queued h halloc hroom⟩⟩

/-! ### What a queued page is (R203, R207 corner cases) -/

/-- A page that gets into the queue has legal operands and a preamble that fits; what is queued is its job. -/
theorem page_of_queued {s t : State} {r : PageRequest} {job : Job} (hexec : exec (.enqueueTransmission r) s = .next t)
    (hqueue : t.queue = s.queue ++ [job]) :
    ¬ outsideLegalValues s.params r ∧ r.preambleBits.toNat ≤ s.params.preambleMax ∧ job = pageJob r := by
  have hgrows {u : State} (hu : exec (.enqueueTransmission r) s = .next u) : u.queue ≠ s.queue := by
    cases hexec.symm.trans hu
    simp [hqueue]
  have hlegal : ¬ outsideLegalValues s.params r := fun h => hgrows (exec_enqueueTransmission_invalid h) rfl
  have halloc : r.preambleBits.toNat ≤ s.params.preambleMax :=
    Nat.le_of_not_lt fun h => hgrows (exec_enqueueTransmission_allocFail hlegal h) rfl
  have hroom : s.queue.length ≠ s.params.queueDepth :=
    fun h => hgrows (exec_enqueueTransmission_busy hlegal halloc h) rfl
  cases hexec.symm.trans (exec_enqueueTransmission_queued hlegal halloc hroom)
  exact ⟨hlegal, halloc, by simpa using hqueue.symm⟩

theorem batchBuild_length_bounds (capcode : BitVec 32) (function : BitVec 8) (message : List Byte) :
    1 ≤ (batchBuild capcode function message).1.length ∧ (batchBuild capcode function message).1.length ≤ 10 := by
  have hcount := (batchBuild_places capcode function message).count
  rw [pageWords_length] at hcount
  omega

/-- A batch is 17 words of 32 bits, SYNC among them (R162). -/
theorem pageJob_bits_length (r : PageRequest) :
    (pageJob r).bits.length =
      r.preambleBits.toNat + 544 * (batchBuild r.capcode r.functionBits r.message).1.length := by
  have hslots := (batchBuild_places r.capcode r.functionBits r.message).holds.slots
  rw [pageJob, jobOf, bitsAssemble_length, streamWords_length hslots, ← Nat.mul_assoc]

theorem pageJob_playable {p : Params} {r : PageRequest} (h : ¬ outsideLegalValues p r) : playable (pageJob r) := by
  have hbaud : r.baud.toNat = 512 ∨ r.baud.toNat = 1200 ∨ r.baud.toNat = 2400 := by
    by_contra hother
    simp only [not_or] at hother
    exact h (.inr (.inr (.inl hother)))
  refine .inr ⟨fun _ => rfl, ?_, ?_⟩
  · change 1 ≤ r.baud.toNat
    omega
  · change r.baud.toNat ≤ 2000000
    omega

/-- Settles O41: between one and ten batches of 544 bits after a preamble that fits, and a legal baud. -/
theorem queuedPagesArePlayable : Obligations.QueuedPagesArePlayable := by
  intro s t r job hexec hqueue
  obtain ⟨hlegal, halloc, rfl⟩ := page_of_queued hexec hqueue
  obtain ⟨hone, hten⟩ := batchBuild_length_bounds r.capcode r.functionBits r.message
  rw [pageJob_bits_length]
  exact ⟨by omega, by omega, pageJob_playable hlegal⟩

end Sys2Proof.Machine
end

section
/-! PROOF. The consumer (spec/44_scheduler.md R205 to R208, R210): its turn in either phase, the finish step beside
`TRANSMIT` (spec/43_waveform_transmitter.md R180), and the queue it drains. -/

namespace Sys2Proof.Machine

/-! ### The consumer's turn (R205, R206) -/

theorem consumerTurn_of_empty {s : State} (hphase : s.phase = .waiting) (hqueue : s.queue = []) :
    consumerTurn s = .next s := by
  simp only [consumerTurn, hphase, hqueue]

theorem consumerTurn_of_waiting {s : State} {job : Job} {later : List Job} (hphase : s.phase = .waiting)
    (hqueue : s.queue = job :: later) : consumerTurn s = .next (consumerStart job later s) := by
  simp only [consumerTurn, hphase, hqueue]

theorem consumerTurn_eq_finish {s : State} {job : Job} (hphase : s.phase = .transmitting job) :
    consumerTurn s = consumerFinish job s := by
  simp only [consumerTurn, hphase]

/-- With nothing brought from outside, every step is the consumer's (log 5). -/
theorem step_of_no_inputs {s : State} (h : s.inputs = []) : step s = consumerTurn s := by
  simp only [step, h]

theorem step_of_consumer {s : State} {rest : List Input} (h : s.inputs = .consumer :: rest) :
    step s = consumerTurn (setInputs rest s) := by
  simp only [step, h]

theorem step_of_request {s : State} {port : Port} {bytes : List Byte} {rest : List Input} {i : Instr}
    (h : s.inputs = .request port bytes :: rest) (hfetch : fetchRequest port bytes = .run i) :
    step s = exec i (setInputs rest s) := by
  simp only [step, h, hfetch]

/-- Settles O43: the queue a blocked consumer sees after `ENQUEUE` is that one job. -/
theorem consumerBlocksOnTheEmptyQueue : Obligations.ConsumerBlocksOnTheEmptyQueue := by
  refine ⟨fun s => consumerTurn_of_empty, fun s job hphase hqueue hroom => ?_⟩
  have hone : s.queue ++ [job] = [job] := by rw [hqueue, List.nil_append]
  exact ⟨_, _, exec_enqueue_of_room hroom job, consumerTurn_of_waiting hphase hone, rfl⟩

/-- Settles O44: the start step is one record update, and the finish step is the only other turn of a busy consumer. -/
theorem consumerStartDequeuesTheHead : Obligations.ConsumerStartDequeuesTheHead := by
  refine ⟨fun s job later hphase hqueue => ?_, fun s t job hphase hturn => ?_,
    fun s j1 j2 hphase hqueue => consumerTurn_of_waiting hphase hqueue⟩
  · refine ⟨_, consumerTurn_of_waiting hphase hqueue, rfl, fun new hfull => exec_enqueue_of_room ?_ new⟩
    change later.length ≠ s.params.queueDepth
    rw [← hfull, hqueue, List.length_cons]
    omega
  · obtain ⟨r, hbody, rfl⟩ := consumerTurn_of_transmitting hphase hturn
    exact ⟨rfl, (transmitBody_frame hbody).1.queue⟩

/-- Settles O42: the consumer's start goes `Busy`, and the request that follows it reads that. -/
theorem statusReportsTheTransmitterState : Obligations.StatusReportsTheTransmitterState := by
  refine ⟨exec_status, fun s job later rest hphase hqueue hinputs => ?_⟩
  have hfetch : fetchRequest .external [0x11#8] = .run .status := by decide
  have hstart : step s = .next _ := (step_of_consumer hinputs).trans (consumerTurn_of_waiting hphase hqueue)
  exact ⟨_, _, hstart, (step_of_request rfl hfetch).trans (exec_status _), rfl⟩

/-! ### What the body of `transmit` refuses (R170, R176, R180) -/

theorem lineRefused_iff {mode : OutputMode} {drive : DrivePolarity} :
    lineRefused mode drive = true ↔ mode = .openDrain ∧ drive ≠ .driveOneLow :=
  decide_eq_true_iff

theorem transmitBody_of_lineRefused {job : Job} (hbits : job.bits ≠ []) (hline : lineRefused job.mode job.drive = true)
    (s : State) : transmitBody job s = .error .openDrainPolarity := by
  simp only [transmitBody, if_neg hbits, if_pos hline]

theorem transmitBody_of_noPeriod {job : Job} (hbits : job.bits ≠ []) (hline : lineRefused job.mode job.drive ≠ true)
    (hperiod : bitPeriod job.baud = none) (s : State) : transmitBody job s = .error (.noBitPeriod job.baud) := by
  simp only [transmitBody, if_neg hbits, if_neg hline, hperiod]

theorem exec_transmit_refused {job : Job} {s : State} {e : Refusal} (hidle : s.txState = .idle)
    (hbody : transmitBody job (setTxState .busy s) = .error e) : exec (.transmit job) s = .refused e := by
  have hbusy : s.txState ≠ .busy := by simp [hidle]
  simp only [exec, execTransmit, if_neg hbusy, hbody]

theorem step_finish_refused {job : Job} {s : State} {e : Refusal} (hphase : s.phase = .transmitting job)
    (hinputs : s.inputs = []) (hbody : transmitBody job s = .error e) : step s = .refused e := by
  rw [step_of_no_inputs hinputs, consumerTurn_eq_finish hphase]
  simp only [consumerFinish, hbody]

/-- Settles O35: both ways into the body pass its refusal on, and the body asks for the line before the period. -/
theorem undefinedJobsAreRefused : Obligations.UndefinedJobsAreRefused := by
  intro s job hbits
  refine ⟨fun hmode hdrive => ?_, fun hdefined hbaud => ?_⟩
  · have hbody := transmitBody_of_lineRefused hbits (lineRefused_iff.mpr ⟨hmode, hdrive⟩)
    exact ⟨fun hidle => exec_transmit_refused hidle (hbody _),
      fun hphase hinputs => step_finish_refused hphase hinputs (hbody s)⟩
  · have hline : lineRefused job.mode job.drive ≠ true := fun h =>
      (lineRefused_iff.mp h).2 (hdefined (lineRefused_iff.mp h).1)
    have hbody := transmitBody_of_noPeriod hbits hline ((bitPeriod_eq_none_iff job.baud).mpr hbaud)
    exact ⟨fun hidle => exec_transmit_refused hidle (hbody _),
      fun hphase hinputs => step_finish_refused hphase hinputs (hbody s)⟩

/-! ### The body does not read the transmitter's state (R180) -/

/-- A result of the body with its state's `txState` replaced. -/
def withTxState (c : TxState) (r : State × TxResult) : State × TxResult := (setTxState c r.1, r.2)

theorem hwOf_setTxState (c : TxState) (s : State) : hwOf (setTxState c s) = hwOf s := rfl

theorem afterDraw_setTxState (c : TxState) (s : State) : afterDraw (setTxState c s) = setTxState c (afterDraw s) := by
  simp only [afterDraw, setTxState_hwAnswers]
  split <;> rfl

theorem assertIdle_setTxState (job : Job) (c : TxState) (s : State) :
    assertIdle job (setTxState c s) = setTxState c (assertIdle job s) :=
  (apply_ite (setTxState c) (gpioValid s job.gpio = true) (setPin job.gpio (jobIdle job s) s) s).symm

theorem releaseOld_setTxState (cfg : Cfg) (c : TxState) (s : State) :
    releaseOld cfg (setTxState c s) = setTxState c (releaseOld cfg s) := by
  simp only [releaseOld, setTxState_lastCfg]
  split
  · split <;> rfl
  · rfl

theorem configure_setTxState (cfg : Cfg) (hw : HwOutcome) (c : TxState) (s : State) :
    configure cfg hw (setTxState c s) = (setTxState c (configure cfg hw s).1, (configure cfg hw s).2) := by
  have hvalid : gpioValid (setTxState c s) cfg.pin = gpioValid s cfg.pin := rfl
  simp only [configure, setTxState_lastCfg, hvalid, releaseOld_setTxState]
  split
  · rfl
  · split <;> rfl

theorem foldl_playPulse_setTxState (job : Job) (ds : List Desc) (c : TxState) (s : State) :
    ds.foldl (playPulse job) (setTxState c s) = setTxState c (ds.foldl (playPulse job) s) := by
  induction ds generalizing s with
  | nil => rfl
  | cons d ds ih => exact ih (playPulse job s d)

theorem startLine_setTxState (job : Job) (ds : List Desc) (c : TxState) (s : State) :
    startLine job ds (setTxState c s) = setTxState c (startLine job ds s) := by
  cases ds <;> rfl

theorem emit_setTxState (job : Job) (ds : List Desc) (k : Nat) (c : TxState) (s : State) :
    emit job ds k (setTxState c s) = setTxState c (emit job ds k s) := by
  simp only [emit, foldl_playPulse_setTxState]
  split <;> rfl

theorem failTransmit_setTxState (cause : HwCause) (job : Job) (hw : HwOutcome) (c : TxState) (s : State) :
    failTransmit cause job hw (setTxState c s) = withTxState c (failTransmit cause job hw s) := by
  have hcfg (d : Option Cfg) : setLastCfg d (setTxState c s) = setTxState c (setLastCfg d s) := rfl
  have hvalid : gpioValid (setTxState c s) job.gpio = gpioValid s job.gpio := rfl
  simp only [failTransmit, reinitialise_eq, hvalid, hcfg, assertIdle_setTxState, withTxState]

theorem playConfigured_setTxState (job : Job) (ds : List Desc) (hw : HwOutcome) (c : TxState) (s : State) :
    playConfigured job ds hw (setTxState c s) = withTxState c (playConfigured job ds hw s) := by
  simp only [playConfigured, startLine_setTxState, emit_setTxState, failTransmit_setTxState]
  split
  · rfl
  · split <;> rfl

theorem playWaveform_setTxState (job : Job) (ds : List Desc) (hw : HwOutcome) (c : TxState) (s : State) :
    playWaveform job ds hw (setTxState c s) = withTxState c (playWaveform job ds hw s) := by
  simp only [playWaveform, configure_setTxState, playConfigured_setTxState, failTransmit_setTxState]
  split <;> rfl

theorem transmitBody_setTxState {job : Job} {s : State} {r : State × TxResult} (h : transmitBody job s = .ok r)
    (c : TxState) : transmitBody job (setTxState c s) = .ok (withTxState c r) := by
  obtain ⟨hbits, rfl⟩ | ⟨hbits, hline, T, hperiod, rfl⟩ := transmitBody_ok_cases h
  · rw [transmitBody, if_pos hbits, assertIdle_setTxState]
    rfl
  · simp only [transmitBody, if_neg hbits, hline, Bool.false_eq_true, if_false, hperiod, hwOf_setTxState,
      afterDraw_setTxState, playWaveform_setTxState]

/-! ### The finish step (R207) -/

theorem noteOf_eq_ite (r : TxResult) : noteOf r = if r = .ok then .txDone else .txFail := by
  cases r <;> rfl

theorem exec_transmit_ok {job : Job} {s : State} {r : State × TxResult} (hidle : s.txState = .idle)
    (hbody : transmitBody job (setTxState .busy s) = .ok r) :
    exec (.transmit job) s = .next (answer (.tx r.2) (returnIdle r.1)) := by
  have hbusy : s.txState ≠ .busy := by simp [hidle]
  simp only [exec, execTransmit, if_neg hbusy, hbody]

theorem step_finish_ok {job : Job} {s : State} {r : State × TxResult} (hphase : s.phase = .transmitting job)
    (hinputs : s.inputs = []) (hbody : transmitBody job s = .ok r) :
    step s = .next (notify (noteOf r.2) (setPhase .waiting (returnIdle r.1))) := by
  rw [step_of_no_inputs hinputs, consumerTurn_eq_finish hphase]
  simp only [consumerFinish, hbody]

/-- Settles O45: both run the same body, which does not read `txState`; what `TRANSMIT` answers, the finish step notes. -/
theorem consumerFinishTransmitsAndNotifies : Obligations.ConsumerFinishTransmitsAndNotifies := by
  intro s job hphase hinputs hplayable
  obtain ⟨r, hbody⟩ := transmitBody_of_playable s hplayable
  obtain ⟨hframe, -, hresult⟩ := transmitBody_frame hbody
  have htransmit : exec (.transmit job) { s with txState := .idle } = .next (answer (.tx r.2) (returnIdle r.1)) :=
    exec_transmit_ok (r := withTxState .busy r) rfl (transmitBody_setTxState hbody .busy)
  refine ⟨_, r.2, htransmit, by simp [hframe.answers], hresult, ?_⟩
  rw [step_finish_ok hphase hinputs hbody, ← noteOf_eq_ite, ← hframe.answers, ← hframe.notes]
  rfl

/-! ### The queue drains (R208, R210; 20_memory.md R66) -/

theorem run_succ {s t : State} (h : step s = .next t) (k : Nat) :
    Host.Core.run core (k + 1) s = Host.Core.run core k t := by
  have hcore : core.step s = .next t := h
  simp only [Host.Core.run, hcore]

/-- The finish step of a playable job ends its phase with one notification and leaves the queue and the answers. -/
theorem step_finish_of_playable {s : State} {job : Job} (hphase : s.phase = .transmitting job) (hinputs : s.inputs = [])
    (hplayable : playable job) :
    ∃ t, step s = .next t ∧ t.phase = .waiting ∧ t.queue = s.queue ∧ t.inputs = [] ∧
      t.notes.length = s.notes.length + 1 ∧ t.answers = s.answers := by
  obtain ⟨r, hbody⟩ := transmitBody_of_playable s hplayable
  obtain ⟨hframe, -, -⟩ := transmitBody_frame hbody
  exact ⟨_, step_finish_ok hphase hinputs hbody, rfl, hframe.queue, hframe.inputs.trans hinputs, by simp [hframe.notes],
    hframe.answers⟩

/-- A waiting consumer drains its queue with a start and a finish step for every job. -/
theorem drains_of_waiting {s : State} (hinputs : s.inputs = []) (hphase : s.phase = .waiting)
    (hplayable : ∀ job ∈ s.queue, playable job) :
    ∃ t, Host.Core.run core (2 * s.queue.length) s = .next t ∧ Quiescent t ∧
      t.notes.length = s.notes.length + s.queue.length ∧ t.answers = s.answers := by
  induction hqueue : s.queue generalizing s with
  | nil => exact ⟨s, rfl, ⟨hphase, hqueue⟩, rfl, rfl⟩
  | cons job later ih =>
    obtain ⟨hjob, hlater⟩ := List.forall_mem_cons.mp (hqueue ▸ hplayable)
    have hstart : step s = .next (consumerStart job later s) :=
      (step_of_no_inputs hinputs).trans (consumerTurn_of_waiting hphase hqueue)
    obtain ⟨u, hfinish, huphase, huqueue, huinputs, hunotes, huanswers⟩ :=
      step_finish_of_playable (s := consumerStart job later s) rfl hinputs hjob
    have hrest : u.queue = later := huqueue
    obtain ⟨t, hrun, hquiet, hnotes, hanswers⟩ := ih huinputs huphase (hrest ▸ hlater) hrest
    refine ⟨t, ?_, hquiet, ?_, hanswers.trans huanswers⟩
    · rw [List.length_cons, Nat.mul_succ, run_succ hstart, run_succ hfinish, hrun]
    · rw [hnotes, hunotes, List.length_cons, Nat.add_assoc, Nat.add_comm 1]
      rfl

/-- Settles O52: a job in flight is finished by the first step, and from a waiting consumer on the queue drains. -/
theorem queueDrainsToQuiescence : Obligations.QueueDrainsToQuiescence := by
  intro s hinputs hqueued hflying
  cases hphase : s.phase with
  | waiting => exact drains_of_waiting hinputs hphase hqueued
  | transmitting job =>
    obtain ⟨u, hfinish, huphase, huqueue, huinputs, hunotes, huanswers⟩ :=
      step_finish_of_playable hphase hinputs (hflying job hphase)
    obtain ⟨t, hrun, hquiet, hnotes, hanswers⟩ := drains_of_waiting huinputs huphase (huqueue ▸ hqueued)
    refine ⟨t, ?_, hquiet, ?_, hanswers.trans huanswers⟩
    · rw [inFlight, run_succ hfinish, ← huqueue, hrun]
    · rw [hnotes, hunotes, huqueue, inFlight, Nat.add_right_comm]

end Sys2Proof.Machine
end

section
/-! PROOF. What `TRANSMIT` and the consumer's turn answer (spec/60_exceptions.md R225; spec/44_scheduler.md R205 to R207). -/

namespace Sys2Proof.Machine

/-- R180: the test of `tx_state` comes before the body, so the job itself, empty or not, plays no part. -/
theorem exec_transmit_of_busy {s : State} (hbusy : s.txState = .busy) (job : Job) :
    exec (.transmit job) s = .next (answer (.tx .busyRejected) s) := by
  simp only [exec, execTransmit, if_pos hbusy]

/-- Only a client's request is answered: the consumer reports the result of its job as a notification (R207). -/
theorem consumerTurn_answers {s t : State} (h : consumerTurn s = .next t) : t.answers = s.answers := by
  obtain ⟨-, -, rfl⟩ | ⟨job, later, -, -, rfl⟩ | ⟨job, r, -, hbody, rfl⟩ := consumerTurn_cases h
  · rfl
  · simp [consumerStart]
  · have hsame : r.1.answers = s.answers := (transmitBody_frame hbody).1.answers
    simp [hsame]

/-- Settles O34: a busy transmitter rejects before the body runs, and no kind of consumer's turn appends an answer. -/
theorem transmitWhileBusyIsRejected : Obligations.TransmitWhileBusyIsRejected :=
  ⟨fun _ job hbusy => exec_transmit_of_busy hbusy job, fun _ _ hturn => consumerTurn_answers hturn⟩

end Sys2Proof.Machine
end

section
/-! PROOF. Requests as bytes (spec/30_encoding.md R100 to R102): what the decoder reads from an encoded request and from a
part of one, and what a port makes of a header. -/

namespace Sys2Proof

/-! ### Encoded requests are read back (R101) -/

/-- The family of laws RoundTrip, for every operation. -/
theorem decodeRecord_record (i : Instr) : Laws.RoundTrip.Statement i := by
  cases i with
  | bchCheck p => exact Laws.RoundTrip.bchCheck p
  | parity32 w => exact Laws.RoundTrip.parity32 w
  | cwEncode p => exact Laws.RoundTrip.cwEncode p
  | cwAddress c f => exact Laws.RoundTrip.cwAddress c f
  | cwMessage c => exact Laws.RoundTrip.cwMessage c
  | textPack m => exact Laws.RoundTrip.textPack m
  | batchBuild c f m => exact Laws.RoundTrip.batchBuild c f m
  | bitsAssemble b p i => exact Laws.RoundTrip.bitsAssemble b p i
  | bitPeriod n => exact Laws.RoundTrip.bitPeriod n
  | rleEncode b t => exact Laws.RoundTrip.rleEncode b t
  | lineAction m d b => exact Laws.RoundTrip.lineAction m d b
  | idleAction m h => exact Laws.RoundTrip.idleAction m h
  | transmit j => exact Laws.RoundTrip.transmit j
  | enqueue j => exact Laws.RoundTrip.enqueue j
  | enqueueTransmission p => exact Laws.RoundTrip.enqueueTransmission p
  | status => exact Laws.RoundTrip.status

/-- The bytes of a record are read as its operation, but for the padding of the last byte. -/
theorem decodeRecord_bytes {i : Instr} (hi : i.wellFormed = true) :
    ∃ n, n < 8 ∧ decodeRecord i.op (bytesToBits (bitsToBytes i.record)) = some (i, List.replicate n false) := by
  obtain ⟨n, hn, hbits⟩ := bytesToBits_bitsToBytes i.record
  exact ⟨n, hn, hbits ▸ decodeRecord_record i hi _⟩

theorem decode_header (op : Op) (record : List Byte) :
    decode (op.code :: record) =
      (decodeRecord op (bytesToBits record)).elim .incomplete fun r => .instr r.1 r.2 := by
  simp only [decode, Op.ofByte_code]
  cases decodeRecord op (bytesToBits record) <;> rfl

/-- Settles O8: the header is read as the operation, and the record as its operands. -/
theorem decodeOfEncodeIsTheRequest : Obligations.DecodeOfEncodeIsTheRequest := by
  intro i hi
  obtain ⟨n, hn, hrecord⟩ := decodeRecord_bytes hi
  exact ⟨n, hn, by rw [encode, decode_header, hrecord, Option.elim_some]⟩

/-! ### A part of an encoded request is not read (log 3) -/

theorem bytesToBits_append (a b : List Byte) : bytesToBits (a ++ b) = bytesToBits a ++ bytesToBits b :=
  List.flatMap_append

theorem bytesToBits_length (bytes : List Byte) : (bytesToBits bytes).length = 8 * bytes.length := by
  induction bytes with
  | nil => rfl
  | cons b bytes ih => rw [bytesToBits, List.flatMap_cons, List.length_append, wordToBits_length, ← bytesToBits, ih,
      List.length_cons, Nat.mul_succ, Nat.add_comm]

/-- A record read from a part of its bytes would leave a whole byte over when it is read from all the bytes, and less than a
byte is padding. -/
theorem decodeRecord_take {i : Instr} (hi : i.wellFormed = true) {k : Nat} (hk : k < (bitsToBytes i.record).length) :
    decodeRecord i.op (bytesToBits ((bitsToBytes i.record).take k)) = none := by
  obtain ⟨n, hn, hall⟩ := decodeRecord_bytes hi
  by_contra hsome
  obtain ⟨⟨j, rest⟩, hread⟩ := Option.ne_none_iff_exists'.mp hsome
  have hextended := decodeRecord_extends i.op _ j rest (bytesToBits ((bitsToBytes i.record).drop k)) hread
  rw [← bytesToBits_append, List.take_append_drop, hall, Option.some.injEq, Prod.mk.injEq] at hextended
  have hlength := congrArg List.length hextended.2
  rw [List.length_replicate, List.length_append, bytesToBits_length, List.length_drop] at hlength
  omega

/-! ### Headers (R100, R102) -/

/-- A header of an operation is the header of some row of the table. -/
theorem mem_opTable_of_ofByte {h : Byte} {op : Op} (hop : Op.ofByte h = some op) : (h, op) ∈ opTable := by
  obtain ⟨row, hfind, rfl⟩ := Option.map_eq_some_iff.mp hop
  have hheader : row.1 = h := by simpa using List.find?_some hfind
  exact hheader ▸ List.mem_of_find?_eq_some hfind

/-- The reserved identifiers 0x00, 0x0F and 0x12 to 0xFF are in no row. -/
theorem opTable_not_reserved : ∀ row ∈ opTable, ¬ (row.1 = 0x00#8 ∨ row.1 = 0x0F#8 ∨ 0x12#8 ≤ row.1) := by decide

/-- The rows 0x01 to 0x0E are those of the component operations. -/
theorem opTable_component : ∀ row ∈ opTable, row.1 ≤ 0x0E#8 → row.2.isExternal = false := by decide

namespace Machine

/-! ### What a port makes of a request (R101, R102) -/

theorem fetchRequest_of_not_served {port : Port} {h : Byte} (record : List Byte)
    (hop : ∀ op, Op.ofByte h = some op → portServes port op = false) : fetchRequest port (h :: record) = .invalid := by
  cases hheader : Op.ofByte h with
  | none => simp only [fetchRequest, hheader]
  | some op => simp only [fetchRequest, hheader, hop op hheader, Bool.false_eq_true, if_false]

theorem fetchRequest_header {port : Port} {op : Op} (hport : portServes port op = true) {record : List Byte}
    (hrecord : decodeRecord op (bytesToBits record) = none) :
    fetchRequest port (op.code :: record) = .incomplete := by
  simp only [fetchRequest, Op.ofByte_code, if_pos hport, decode_header, hrecord, Option.elim_none]

theorem fetchRequest_of_decode {port : Port} {bytes : List Byte} {i : Instr} {left : Bits}
    (hdecode : decode bytes = .instr i left) (hport : portServes port i.op = true) :
    fetchRequest port bytes = .run i := by
  obtain ⟨h, record, rfl, hop⟩ := decode_instr hdecode
  simp only [fetchRequest, hop, if_pos hport, hdecode]

theorem step_of_invalid {s : State} {port : Port} {bytes : List Byte} {rest : List Input}
    (h : s.inputs = .request port bytes :: rest) (hfetch : fetchRequest port bytes = .invalid) :
    step s = .next (answer .invalid (setInputs rest s)) := by
  simp only [step, h, hfetch]

theorem step_of_incomplete {s : State} {port : Port} {bytes : List Byte} {rest : List Input}
    (h : s.inputs = .request port bytes :: rest) (hfetch : fetchRequest port bytes = .incomplete) :
    step s = .refused .incompleteRequest := by
  simp only [step, h, hfetch]

/-- Settles O9: a reserved header is in no row of the table, and the rows below 0x0F are the component operations'. -/
theorem reservedAndMisplacedOpsAnswerInvalid : Obligations.ReservedAndMisplacedOpsAnswerInvalid := by
  intro s port h record rest hinputs hheader
  refine step_of_invalid hinputs (fetchRequest_of_not_served record fun op hop => ?_)
  have hrow := mem_opTable_of_ofByte hop
  have hknown := opTable_not_reserved _ hrow
  obtain hnull | hgap | hhigh | ⟨rfl, -, hcomponent⟩ := hheader
  · exact absurd (.inl hnull) hknown
  · exact absurd (.inr (.inl hgap)) hknown
  · exact absurd (.inr (.inr hhigh)) hknown
  · exact opTable_component _ hrow hcomponent

/-- Settles O10: without the header there is no operation, and a part of the record's bytes is not read. -/
theorem incompleteRequestIsRefused : Obligations.IncompleteRequestIsRefused := by
  intro s port i k rest hi hport hk hinputs
  refine step_of_incomplete hinputs ?_
  cases k with
  | zero => rfl
  | succ k => exact fetchRequest_header hport (decodeRecord_take hi (Nat.lt_of_succ_lt_succ hk))

/-- Settles O4: bytes that decode at a port that serves them are fetched as their operation. -/
theorem stepRunsTheDecodedRequest : Obligations.StepRunsTheDecodedRequest :=
  fun _ _ _ _ _ _ hinputs hdecode hport => step_of_request hinputs (fetchRequest_of_decode hdecode hport)

/-- Settles O7: the decoder runs on the six requests. -/
theorem sampleRequestBytesDecode : Obligations.SampleRequestBytesDecode := by
  unfold Obligations.SampleRequestBytesDecode
  decide

end Machine

end Sys2Proof
end

section
/-! PROOF. The fields of a message codeword (spec/30_encoding.md R85), beside those of an address codeword. -/

namespace Sys2Proof.Machine

/-- The chunk is the payload below the type bit (R85). -/
theorem messagePayload_chunk (chunk : Chunk) : (messagePayload chunk).extractLsb' 0 20 = chunk := by
  ext i hi
  have htype : (0x100000#21).getLsbD i = false := by
    revert i
    decide
  rw [BitVec.getElem_extractLsb', messagePayload, BitVec.getLsbD_or, Nat.zero_add, htype, Bool.false_or,
    BitVec.getLsbD_setWidth, decide_eq_true (by omega), Bool.true_and, BitVec.getLsbD_eq_getElem]

/-- Settles O17: the word is `CW_ENCODE` of the message payload, whose fields stand 11 bits higher in it. -/
theorem messageCodewordFields : Obligations.MessageCodewordFields := by
  intro chunk s
  refine ⟨cwMessage chunk, exec_cwMessage chunk s, getLsbD_cwMessage_type chunk, ?_, ?_, ?_⟩
  · exact (extractLsb'_cwEncode_payload _ (start := 0) (by decide)).trans (messagePayload_chunk chunk)
  · exact cwEncode_extractLsb'_payload _
  · rw [cwMessage, cwEncode_extractLsb'_payload, exec_cwEncode]

end Sys2Proof.Machine
end

section
/-! PROOF. The pure operations of the Waveform Transmitter (spec/43_waveform_transmitter.md R170, R174 to R176, R178, R184). -/

namespace Sys2Proof.Machine

/-! ### `BIT_PERIOD` (R170) -/

theorem exec_bitPeriod {baud T : Nat} (h : bitPeriod baud = some T) (s : State) :
    exec (.bitPeriod baud) s = .next { s with answers := s.answers ++ [.period T] } := by
  simp only [exec, execBitPeriod, h, answer]

theorem exec_bitPeriod_refused {baud : Nat} (h : bitPeriod baud = none) (s : State) :
    exec (.bitPeriod baud) s = .refused (.noBitPeriod baud) := by
  simp only [exec, execBitPeriod, h]

/-- Settles O25: the two inequalities are those of a quotient by `2·baud`. -/
theorem bitPeriodRoundsToNearest : Obligations.BitPeriodRoundsToNearest := by
  refine fun baud s => ⟨fun hlow hhigh => ?_, fun hout => exec_bitPeriod_refused ((bitPeriod_eq_none_iff baud).mpr hout) s⟩
  have hpos : 0 < 2 * baud := by omega
  exact ⟨_, exec_bitPeriod ((bitPeriod_eq_some_iff baud _).mpr ⟨hlow, hhigh, rfl⟩) s,
    (Nat.one_le_div_iff hpos).mpr (by omega), Nat.mul_div_le _ _, Nat.lt_mul_div_succ _ hpos⟩

/-! ### The runs of a bit sequence (R174) -/

/-- One more bit in front lengthens the first run or starts a run of its own, next to a run of the other level. -/
theorem runs_cons (b : Bool) (bs : Bits) :
    (∃ n rest, runs bs = (b, n) :: rest ∧ runs (b :: bs) = (b, n + 1) :: rest) ∨
    ((∀ r ∈ (runs bs).head?, b ≠ r.1) ∧ runs (b :: bs) = (b, 1) :: runs bs) := by
  rw [runs]
  cases hruns : runs bs with
  | nil => exact .inr ⟨by simp, rfl⟩
  | cons r rest =>
    obtain ⟨c, n⟩ := r
    by_cases hlevel : b = c
    · subst hlevel
      exact .inl ⟨n, rest, rfl, if_pos rfl⟩
    · exact .inr ⟨by simpa using hlevel, if_neg hlevel⟩

theorem runs_pos (bits : Bits) : ∀ r ∈ runs bits, 1 ≤ r.2 := by
  induction bits with
  | nil => simp [runs]
  | cons b bs ih =>
    obtain ⟨n, rest, hruns, hcons⟩ | ⟨-, hcons⟩ := runs_cons b bs
    · rw [hruns] at ih
      rw [hcons]
      exact List.forall_mem_cons.mpr ⟨Nat.le_add_left 1 n, (List.forall_mem_cons.mp ih).2⟩
    · rw [hcons]
      exact List.forall_mem_cons.mpr ⟨le_rfl, ih⟩

/-- The runs are maximal: neighbours differ in level. -/
theorem runs_isChain (bits : Bits) : (runs bits).IsChain fun r r' => r.1 ≠ r'.1 := by
  induction bits with
  | nil => exact .nil
  | cons b bs ih =>
    obtain ⟨n, rest, hruns, hcons⟩ | ⟨hdiffer, hcons⟩ := runs_cons b bs
    · rw [hruns, List.isChain_cons] at ih
      rw [hcons]
      exact List.isChain_cons.mpr ih
    · rw [hcons]
      exact List.isChain_cons.mpr ⟨hdiffer, ih⟩

/-- Every bit for `T` ticks is every run for `T` ticks a bit. -/
theorem flatMap_runs (bits : Bits) (T : Nat) :
    (runs bits).flatMap (fun r => List.replicate (r.2 * T) r.1) = bits.flatMap fun b => List.replicate T b := by
  induction bits with
  | nil => rfl
  | cons b bs ih =>
    rw [List.flatMap_cons, ← ih]
    obtain ⟨n, rest, hruns, hcons⟩ | ⟨-, hcons⟩ := runs_cons b bs
    · rw [hcons, hruns, List.flatMap_cons, List.flatMap_cons, ← List.append_assoc, List.replicate_append_replicate,
        Nat.succ_mul, Nat.add_comm]
    · rw [hcons, List.flatMap_cons, Nat.one_mul]

/-! ### One run as sub-pulses (R174, decision D14) -/

/-- Greedy splitting: a descriptor that is followed by one of its own level has full length. -/
def SplitsGreedily (d e : Desc) : Prop := d.level = e.level → d.dur = 32767

theorem mem_splitRun {level : Bool} {n : Nat} (hn : 1 ≤ n) {d : Desc} (hd : d ∈ splitRun level n) :
    d.level = level ∧ 1 ≤ d.dur ∧ d.dur ≤ 32767 := by
  rw [splitRun, List.mem_append, List.mem_replicate, List.mem_singleton] at hd
  obtain ⟨-, rfl⟩ | rfl := hd
  · exact ⟨rfl, Nat.le_add_left 1 _, le_rfl⟩
  · exact ⟨rfl, by simp only [Config.maxPulseTicks]; omega, by simp only [Config.maxPulseTicks]; omega⟩

theorem ticks_append (ds es : List Desc) : ticks (ds ++ es) = ticks ds ++ ticks es := List.flatMap_append

theorem ticks_splitRun (level : Bool) (n : Nat) : ticks (splitRun level n) = List.replicate n level := by
  have hfull (k : Nat) : ticks (List.replicate k ⟨level, 32767⟩) = List.replicate (k * 32767) level := by
    rw [ticks, List.flatMap_replicate, List.flatten_replicate_replicate]
  have hlast (d : Nat) : ticks [⟨level, d⟩] = List.replicate d level := List.flatMap_singleton ..
  rw [splitRun, ticks_append, hfull, hlast, List.replicate_append_replicate]
  congr 1
  simp only [Config.maxPulseTicks]
  omega

theorem splitRun_isChain (level : Bool) (n : Nat) : (splitRun level n).IsChain SplitsGreedily := by
  refine List.isChain_append.mpr ⟨List.isChain_replicate_of_rel _ fun _ => rfl, .singleton _, fun d hd _ _ _ => ?_⟩
  rw [List.eq_of_mem_replicate (List.mem_of_getLast? hd)]

/-! ### `RLE_ENCODE` (R174, R175) -/

theorem mem_rleEncode {bits : Bits} {T : Nat} (hT : 1 ≤ T) {d : Desc} (hd : d ∈ rleEncode bits T) :
    1 ≤ d.dur ∧ d.dur ≤ 32767 := by
  obtain ⟨r, hr, hd⟩ := List.mem_flatMap.mp hd
  exact (mem_splitRun (Nat.mul_pos (runs_pos bits r hr) hT) hd).2

theorem ticks_rleEncode (bits : Bits) (T : Nat) :
    ticks (rleEncode bits T) = bits.flatMap fun b => List.replicate T b := by
  rw [← flatMap_runs, rleEncode, ticks, List.flatMap_assoc]
  exact congrArg (List.flatMap · (runs bits)) (funext fun r => ticks_splitRun r.1 (r.2 * T))

/-- The durations of a list of descriptors add up to the length of its waveform. -/
theorem sum_dur_eq_length_ticks (ds : List Desc) : (ds.map (·.dur)).sum = (ticks ds).length := by
  simp only [ticks, List.length_flatMap, List.length_replicate]

theorem sum_dur_rleEncode (bits : Bits) (T : Nat) : ((rleEncode bits T).map (·.dur)).sum = bits.length * T := by
  simp only [sum_dur_eq_length_ticks, ticks_rleEncode, List.length_flatMap, List.length_replicate, List.map_const',
    List.sum_replicate, smul_eq_mul]

/-- Within a run the splitting is greedy, and where two runs meet the level changes. -/
theorem rleEncode_isChain (bits : Bits) {T : Nat} (hT : 1 ≤ T) : (rleEncode bits T).IsChain SplitsGreedily := by
  have hlevel : ∀ r ∈ runs bits, ∀ d ∈ splitRun r.1 (r.2 * T), d.level = r.1 := fun r hr d hd =>
    (mem_splitRun (Nat.mul_pos (runs_pos bits r hr) hT) hd).1
  rw [rleEncode, List.flatMap_def, List.isChain_flatten (by simp [splitRun_ne_nil]), List.isChain_map]
  refine ⟨List.forall_mem_map.mpr fun r _ => splitRun_isChain _ _, (runs_isChain bits).imp_of_mem_imp ?_⟩
  intro r r' hr hr' hdiffer d hd e he hsame
  rw [hlevel r hr d (List.mem_of_getLast? hd), hlevel r' hr' e (List.mem_of_head? he)] at hsame
  exact absurd hsame hdiffer

theorem exec_rleEncode (bits : Bits) {T : Nat} (hT : 1 ≤ T) (s : State) :
    exec (.rleEncode bits T) s = .next { s with answers := s.answers ++ [.descs (rleEncode bits T)] } :=
  if_neg fun hzero => Nat.ne_of_gt hT hzero.1

/-- Settles O26: run by run, the splitting of a run being legal, exact and greedy. -/
theorem rleEncodeExpandsToTheWaveform : Obligations.RleEncodeExpandsToTheWaveform := fun bits T s hT =>
  ⟨rleEncode bits T, exec_rleEncode bits hT s, fun _ => mem_rleEncode hT, ticks_rleEncode bits T, sum_dur_rleEncode bits T,
    List.isChain_iff_getElem.mp (rleEncode_isChain bits hT)⟩

/-- Settles O27: the empty sequence has no run, and any other is refused. -/
theorem rleEncodeOfPeriodZero : Obligations.RleEncodeOfPeriodZero := by
  refine fun bits s => ⟨?_, fun hbits => if_pos ⟨rfl, hbits⟩⟩
  rintro rfl
  rfl

/-- Settles O38: the durations add up to `n·T`, and the bound is `n·T + 1` and the margin. -/
theorem watchdogExceedsTheWaveform : Obligations.WatchdogExceedsTheWaveform := by
  intro job T s ds hT hexec
  rw [exec_rleEncode job.bits hT, next_answer_inj, Answer.descs.injEq] at hexec
  rw [← hexec, sum_dur_rleEncode, watchdogUs, Config.txTimeoutUs]
  omega

/-! ### `LINE_ACTION` and `IDLE_ACTION` (R176, R178) -/

theorem exec_lineAction_refused {mode : OutputMode} {drive : DrivePolarity} (h : lineRefused mode drive = true) (bit : Bool)
    (s : State) : exec (.lineAction mode drive bit) s = .refused .openDrainPolarity :=
  if_pos h

/-- Settles O28: the rows of the table, and the row it does not have. -/
theorem lineActionTruthTable : Obligations.LineActionTruthTable := fun _ s =>
  ⟨rfl, rfl, rfl, rfl, fun _ bit => exec_lineAction_refused (lineRefused_iff.mpr ⟨rfl, by simp⟩) bit s⟩

theorem exec_idleAction (mode : OutputMode) (idleHigh : Bool) (s : State) :
    exec (.idleAction mode idleHigh) s =
      .next { s with answers := s.answers ++ [.pinState (idlePolicy s.params.idlePolicy mode idleHigh)] } := rfl

/-- Settles O29: each mode and idle level has its own entry of the policy. -/
theorem idleActionFollowsThePolicy : Obligations.IdleActionFollowsThePolicy := fun s =>
  ⟨exec_idleAction .openDrain true s, exec_idleAction .openDrain false s, exec_idleAction .pushPull true s,
    exec_idleAction .pushPull false s, rfl⟩

end Sys2Proof.Machine
end

section
/-! PROOF. What the body of `transmit` leaves of the line, the peripheral and the log, outcome by outcome
(spec/43_waveform_transmitter.md R177, R179 to R182), and what `TRANSMIT` is for each. -/

namespace Sys2Proof.Machine

/-! ### The hand-back and the last write (R179, R181) -/

/-- What a pin reads as once the old pin was handed back. -/
theorem pinAfter_of_ne {s : State} {cfg : Cfg} {q : Nat} (hq : q ≠ cfg.pin.toNat) (last : PinState) :
    pinAfter s cfg last q = if (handedBack s cfg).any (fun g => g.toNat == q) then .hiZ else pinRead s.pin q :=
  if_neg hq

theorem handedBack_congr {s t : State} (h : s.lastCfg = t.lastCfg) (cfg : Cfg) : handedBack s cfg = handedBack t cfg := by
  rw [handedBack, handedBack, h]

/-- The pin of the new configuration is not the one handed back. -/
theorem handedBack_any_self (s : State) (cfg : Cfg) :
    (handedBack s cfg).any (fun g => g.toNat == cfg.pin.toNat) = false := by
  unfold handedBack
  split
  · rfl
  · split
    · rfl
    · rename_i hne
      simpa [← BitVec.toNat_inj] using hne

theorem pinAfter_pinRead (s : State) (cfg : Cfg) (q : Nat) :
    pinAfter s cfg (pinRead s.pin cfg.pin.toNat) q =
      if (handedBack s cfg).any (fun g => g.toNat == q) then .hiZ else pinRead s.pin q := by
  by_cases hq : q = cfg.pin.toNat
  · subst hq
    rw [pinAfter, if_pos rfl, handedBack_any_self, if_neg Bool.false_ne_true]
  · exact pinAfter_of_ne hq _

/-- What the body makes of peripheral, pins and log: the configuration left, the last state of the job's pin, and the log
items after those of the hand-back. -/
structure LineOutcome (job : Job) (s t : State) (cfg : Option Cfg) (last : PinState) (items : List WaveItem) : Prop where
  lastCfg : t.lastCfg = cfg
  pins : ∀ q, pinRead t.pin q = pinAfter s (jobCfg job) last q
  wave : t.wave = s.wave ++ handBackItems s (jobCfg job) ++ items

/-- The hand-back and the pins before it are read from three fields of the state at the start. -/
theorem LineOutcome.of_start {job : Job} {s s' t : State} {cfg : Option Cfg} {last : PinState} {items : List WaveItem}
    (h : LineOutcome job s' t cfg last items) (hcfg : s'.lastCfg = s.lastCfg) (hpin : s'.pin = s.pin)
    (hwave : s'.wave = s.wave) : LineOutcome job s t cfg last items where
  lastCfg := h.lastCfg
  pins := by
    intro q
    rw [h.pins, pinAfter, pinAfter, handedBack_congr hcfg, hpin]
  wave := by rw [h.wave, handBackItems, handBackItems, handedBack_congr hcfg, hwave]

/-- A write to the job's pin settles that pin and is one more log item. -/
theorem LineOutcome.writes {job : Job} {s t : State} {cfg : Option Cfg} {last : PinState} {items : List WaveItem}
    (h : LineOutcome job s t cfg last items) (v : PinState) :
    LineOutcome job s (setPin job.gpio v t) cfg v (items ++ [.set job.gpio v]) where
  lastCfg := h.lastCfg
  pins := by
    intro q
    rw [setPin_pin, pinRead_pinWrite]
    by_cases hq : q = job.gpio.toNat
    · rw [if_pos hq, pinAfter, jobCfg_pin, if_pos hq]
    · rw [if_neg hq, h.pins, pinAfter_of_ne hq, pinAfter_of_ne hq]
  wave := by rw [setPin_wave, h.wave, List.append_assoc _ items]

/-! ### The parts of the body -/

/-- The configuration the job asks for is there already, or it is made on a pin that exists (R179). -/
def GetsConfigured (job : Job) (hw : HwOutcome) (s : State) : Prop :=
  s.lastCfg = some (jobCfg job) ∨ (gpioValid s job.gpio = true ∧ hw.cfg = .ok)

theorem configure_snd_iff (job : Job) (hw : HwOutcome) (s : State) :
    (configure (jobCfg job) hw s).2 = true ↔ GetsConfigured job hw s := by
  obtain ⟨hsame, he⟩ | ⟨hother, hv | hcfg, he⟩ | ⟨hother, hv, hcfg, he⟩ := configure_cases (jobCfg job) hw s
  · exact iff_of_true (by rw [he]) (.inl hsame)
  · exact iff_of_false (by simp [he]) (by rw [jobCfg_pin] at hv; simp [GetsConfigured, hother, hv])
  · exact iff_of_false (by simp [he]) (by simp [GetsConfigured, hother, hcfg])
  · exact iff_of_true (by rw [he]) (.inr ⟨hv, hcfg⟩)

/-- The configuration hands the old pin back, whether it succeeds or not, and writes no other pin (R179). -/
theorem configure_outcome (job : Job) (hw : HwOutcome) (s : State) :
    LineOutcome job s (configure (jobCfg job) hw s).1
      (if (configure (jobCfg job) hw s).2 then some (jobCfg job) else none) (pinRead s.pin job.gpio.toNat) [] := by
  have hread (q : Nat) := pinAfter_pinRead s (jobCfg job) q
  cases hdone : (configure (jobCfg job) hw s).2 with
  | true =>
    obtain ⟨-, hcfg, hwave, hpins, -⟩ := configure_true hdone
    exact ⟨hcfg, fun q => (hpins q).trans (hread q).symm, by rw [hwave, List.append_nil]⟩
  | false =>
    obtain ⟨-, hcfg, hwave, hpins, -⟩ := configure_false hdone
    exact ⟨hcfg, fun q => (hpins q).trans (hread q).symm, by rw [hwave, List.append_nil]⟩

/-- The log of the pulses of a job: the start state, the first `k` pulses, and a fragment of the next (R177, R180). -/
def playedItems (job : Job) (d : Desc) (ds : List Desc) (k : Nat) : List WaveItem :=
  [.set job.gpio (levelState job.mode d.level)] ++ pulseItems job ((d :: ds).take k) ++
    (if k < ds.length + 1 then [.partialPulse job.gpio] else [])

/-- Up to the pulses, on a peripheral that is or gets configured. -/
theorem GetsConfigured.plays {job : Job} {hw : HwOutcome} {s : State} (h : GetsConfigured job hw s) (d : Desc)
    (ds : List Desc) (k : Nat) :
    ∃ last, LineOutcome job s (played job (d :: ds) k (configure (jobCfg job) hw s).1) (some (jobCfg job)) last
      (playedItems job d ds k) := by
  have hconfigured := configure_outcome job hw s
  rw [if_pos ((configure_snd_iff job hw s).mpr h)] at hconfigured
  obtain ⟨-, hcfg, hwave, hpins, -⟩ := played_spec job d ds k (configure (jobCfg job) hw s).1
  refine ⟨pinRead (played job (d :: ds) k (configure (jobCfg job) hw s).1).pin job.gpio.toNat,
    hcfg.trans hconfigured.lastCfg, fun q => ?_, ?_⟩
  · by_cases hq : q = job.gpio.toNat
    · rw [hq, pinAfter, jobCfg_pin, if_pos rfl]
    · rw [hpins q hq, hconfigured.pins, pinAfter_of_ne hq, pinAfter_of_ne hq]
  · simp only [hwave, hconfigured.wave, playedItems, List.append_assoc, List.nil_append]

/-- A failure re-initialises and forces a pin that exists to its idle state (R182). -/
theorem LineOutcome.fails {job : Job} {s t : State} {cfg : Option Cfg} {last : PinState} {items : List WaveItem}
    (h : LineOutcome job s t cfg last items) (hf : TxFrame s t) (hv : gpioValid s job.gpio = true) (cause : HwCause)
    (hw : HwOutcome) :
    LineOutcome job s (failTransmit cause job hw t).1 (if hw.reinit = .ok then some (jobCfg job) else none)
      (jobIdle job s) (items ++ [.set job.gpio (jobIdle job s)]) := by
  obtain ⟨-, -, hcfg, hwave, hpin⟩ := failTransmit_spec cause job hw t (hf.pinExists hv)
  have hforced := h.writes (jobIdle job t)
  rw [← jobIdle_congr hf.params job]
  exact ⟨hcfg, hpin ▸ hforced.pins, hwave.trans hforced.wave⟩

/-! ### The ways out of the body -/

theorem playWaveform_of_configured {job : Job} {hw : HwOutcome} {s : State} (h : GetsConfigured job hw s) (ds : List Desc) :
    playWaveform job ds hw s = playConfigured job ds hw (configure (jobCfg job) hw s).1 :=
  if_pos ((configure_snd_iff job hw s).mpr h)

theorem playWaveform_of_not_configured {job : Job} {hw : HwOutcome} {s : State} (h : ¬ GetsConfigured job hw s)
    (ds : List Desc) :
    playWaveform job ds hw s = failTransmit .configFail job hw (configure (jobCfg job) hw s).1 :=
  if_neg (mt (configure_snd_iff job hw s).mp h)

/-- The result of a waveform and what it leaves of the line. -/
def PlaysTo (job : Job) (ds : List Desc) (hw : HwOutcome) (s : State) (r : TxResult) (cfg : Option Cfg) (last : PinState)
    (items : List WaveItem) : Prop :=
  (playWaveform job ds hw s).2 = r ∧ LineOutcome job s (playWaveform job ds hw s).1 cfg last items

/-- Success: every pulse, then the idle state (R180 step 5, R181). -/
theorem playsTo_ok {job : Job} {hw : HwOutcome} {s : State} (hcfg : GetsConfigured job hw s) (hwrite : hw.write = .ok)
    (hwait : hw.wait = .done) (d : Desc) (ds : List Desc) :
    PlaysTo job (d :: ds) hw s .ok (some (jobCfg job)) (jobIdle job s)
      ([.set job.gpio (levelState job.mode d.level)] ++ pulseItems job (d :: ds) ++ [.set job.gpio (jobIdle job s)]) := by
  rw [PlaysTo, playWaveform_of_configured hcfg]
  obtain ⟨hfail, -⟩ | ⟨-, htimeout, -⟩ | ⟨-, -, he⟩ :=
    playConfigured_cases job (d :: ds) hw (configure (jobCfg job) hw s).1
  · simp [hwrite] at hfail
  · simp [hwait] at htimeout
  · obtain ⟨last, hplayed⟩ := hcfg.plays d ds (ds.length + 1)
    rw [playedItems, List.take_of_length_le (by simp), if_neg (lt_irrefl _), List.append_nil] at hplayed
    rw [he, jobIdle_congr (configure_frame (jobCfg job) hw s).params job]
    exact ⟨rfl, hplayed.writes (jobIdle job s)⟩

/-- How a configured peripheral fails: a write failure, else a time-out (R224). -/
def FailsWith (hw : HwOutcome) (cause : HwCause) : Prop :=
  (cause = .writeFail ∧ hw.write = .fail) ∨ (cause = .timeout ∧ hw.write = .ok ∧ hw.wait = .timeout)

theorem playConfigured_of_failsWith {hw : HwOutcome} {cause : HwCause} (h : FailsWith hw cause) (job : Job)
    (ds : List Desc) (s : State) :
    playConfigured job ds hw s = failTransmit cause job hw (played job ds (min hw.emitted ds.length) s) := by
  obtain ⟨rfl, hwrite⟩ | ⟨rfl, hwrite, hwait⟩ := h
  · exact if_pos hwrite
  · simp only [playConfigured, hwrite, hwait, played, reduceCtorEq, if_false, if_true]

/-- A failure while the job is played: the pulses so far, then the failure's own writes (R182). -/
theorem playsTo_fail {job : Job} {hw : HwOutcome} {cause : HwCause} {s : State} (hcfg : GetsConfigured job hw s)
    (hv : gpioValid s job.gpio = true) (hfails : FailsWith hw cause) (d : Desc) (ds : List Desc) :
    PlaysTo job (d :: ds) hw s (.fail cause) (if hw.reinit = .ok then some (jobCfg job) else none) (jobIdle job s)
      (playedItems job d ds (min hw.emitted (ds.length + 1)) ++ [.set job.gpio (jobIdle job s)]) := by
  have hframe := (configure_frame (jobCfg job) hw s).trans
    (played_frame job (d :: ds) (min hw.emitted (ds.length + 1)) (configure (jobCfg job) hw s).1)
  obtain ⟨last, hplayed⟩ := hcfg.plays d ds (min hw.emitted (ds.length + 1))
  rw [PlaysTo, playWaveform_of_configured hcfg, playConfigured_of_failsWith hfails]
  exact ⟨rfl, hplayed.fails hframe.toTxFrame hv cause hw⟩

/-- A configuration that fails on a pin that exists (R179, R182). -/
theorem playsTo_configFail {job : Job} {hw : HwOutcome} {s : State} (hcfg : ¬ GetsConfigured job hw s)
    (hv : gpioValid s job.gpio = true) (ds : List Desc) :
    PlaysTo job ds hw s (.fail .configFail) (if hw.reinit = .ok then some (jobCfg job) else none) (jobIdle job s)
      [.set job.gpio (jobIdle job s)] := by
  rw [PlaysTo, playWaveform_of_not_configured hcfg]
  exact ⟨rfl, (configure_outcome job hw s).fails (configure_frame (jobCfg job) hw s).toTxFrame hv .configFail hw⟩

/-- A configuration for a pin that does not exist: no write to it at all (R179, R182). -/
theorem playsTo_noPin {job : Job} {hw : HwOutcome} {s : State} (hcfg : ¬ GetsConfigured job hw s)
    (hv : gpioValid s job.gpio = false) (ds : List Desc) :
    PlaysTo job ds hw s (.fail .configFail) none (pinRead s.pin job.gpio.toNat) [] := by
  have hmissing : gpioValid (configure (jobCfg job) hw s).1 job.gpio = false :=
    gpioValid_congr (configure_frame (jobCfg job) hw s).params job.gpio ▸ hv
  rw [PlaysTo, playWaveform_of_not_configured hcfg, failTransmit_noPin _ _ _ _ hmissing]
  exact ⟨rfl, { configure_outcome job hw s with lastCfg := rfl }⟩

/-! ### `TRANSMIT` of a non-empty job (R180) -/

/-- A non-empty job whose line and bit period are defined (R170, R176). -/
structure DefinedJob (job : Job) : Prop where
  bits : job.bits ≠ []
  line : job.mode = .openDrain → job.drive = .driveOneLow
  baud_pos : 1 ≤ job.baud
  baud_le : job.baud ≤ 2000000

/-- The bit period of a job with a legal baud (R170). -/
def periodOf (job : Job) : Nat := (2000000 + job.baud) / (2 * job.baud)

theorem DefinedJob.transmitBody_eq {job : Job} (h : DefinedJob job) (s : State) :
    transmitBody job s = .ok (playWaveform job (rleEncode job.bits (periodOf job)) (hwOf s) (afterDraw s)) := by
  have hline : lineRefused job.mode job.drive ≠ true := fun hrefused =>
    (lineRefused_iff.mp hrefused).2 (h.line (lineRefused_iff.mp hrefused).1)
  have hperiod : bitPeriod job.baud = some (periodOf job) :=
    (bitPeriod_eq_some_iff job.baud _).mpr ⟨h.baud_pos, h.baud_le, rfl⟩
  simp only [transmitBody, if_neg h.bits, if_neg hline, hperiod]

/-- A defined job has a first pulse, and `RLE_ENCODE` answers its descriptors. -/
theorem DefinedJob.exec_rleEncode {job : Job} (h : DefinedJob job) (s : State) :
    ∃ d ds, rleEncode job.bits (periodOf job) = d :: ds ∧
      exec (.rleEncode job.bits (periodOf job)) s = .next { s with answers := s.answers ++ [.descs (d :: ds)] } := by
  obtain ⟨d, ds, hds⟩ := List.exists_cons_of_ne_nil (rleEncode_ne_nil h.bits (periodOf job))
  have hbaud := h.baud_le
  have hpos : 1 ≤ periodOf job := (Nat.one_le_div_iff (Nat.mul_pos Nat.two_pos h.baud_pos)).mpr (by omega)
  exact ⟨d, ds, hds, hds ▸ Machine.exec_rleEncode job.bits hpos s⟩

/-- The state in which an idle transmitter plays a job: `Busy`, and the oracle's value drawn (log 7). -/
def bodyStart (s : State) : State := afterDraw (setTxState .busy s)

theorem getsConfigured_bodyStart {job : Job} {hw : HwOutcome} {s : State} :
    GetsConfigured job hw (bodyStart s) ↔ GetsConfigured job hw s := by
  simp [GetsConfigured, bodyStart, gpioValid]

theorem gpioValid_bodyStart (s : State) (p : Gpio) : gpioValid (bodyStart s) p = gpioValid s p :=
  gpioValid_congr (by simp [bodyStart]) p

theorem jobIdle_bodyStart (job : Job) (s : State) : jobIdle job (bodyStart s) = jobIdle job s :=
  jobIdle_congr (by simp [bodyStart]) job

theorem pin_bodyStart (s : State) : (bodyStart s).pin = s.pin := by simp [bodyStart]

/-- What `TRANSMIT` of a non-empty job leaves alone, its answer and its draw. -/
structure TransmitFrame (s t : State) (r : TxResult) : Prop where
  txState : t.txState = .idle
  phase : t.phase = s.phase
  queue : t.queue = s.queue
  notes : t.notes = s.notes
  params : t.params = s.params
  inputs : t.inputs = s.inputs
  answers : t.answers = s.answers ++ [.tx r]
  hwAnswers : t.hwAnswers = s.hwAnswers.tail
  hwDraws : t.hwDraws = if s.hwAnswers = [] then s.hwDraws + 1 else s.hwDraws

/-- `TRANSMIT` of a defined job on an idle transmitter completes with the result and the line that its waveform has. -/
theorem DefinedJob.exec_transmit {job : Job} (h : DefinedJob job) {s : State} (hidle : s.txState = .idle) {r : TxResult}
    {cfg : Option Cfg} {last : PinState} {items : List WaveItem}
    (hplay : PlaysTo job (rleEncode job.bits (periodOf job)) (hwOf s) (bodyStart s) r cfg last items) :
    ∃ t, exec (.transmit job) s = .next t ∧ TransmitFrame s t r ∧ LineOutcome job s t cfg last items := by
  obtain ⟨rfl, hline⟩ := hplay
  have hdescs := rleEncode_ne_nil h.bits (periodOf job)
  obtain ⟨hplayed, -, -⟩ := playWaveform_frame job hdescs (hwOf s) (bodyStart s)
  obtain ⟨-, phase, queue, notes, params, inputs, answers⟩ :=
    (afterDraw_frame (setTxState .busy s)).trans hplayed.toTxFrame
  have hstart := hline.of_start (s := s) (by simp [bodyStart]) (by simp [bodyStart]) (by simp [bodyStart])
  exact ⟨_, exec_transmit_ok hidle (h.transmitBody_eq _),
    { txState := rfl, phase, queue, notes, params, inputs
      answers := congrArg (· ++ _) answers
      hwAnswers := hplayed.hwAnswers.trans (afterDraw_hwAnswers _)
      hwDraws := hplayed.hwDraws.trans (afterDraw_hwDraws _) },
    { lastCfg := hstart.lastCfg, pins := hstart.pins, wave := hstart.wave }⟩

/-- Settles O30: the successful way out of the body, beside the frame of `TRANSMIT`. -/
theorem transmitPlaysTheWholeWaveform : Obligations.TransmitPlaysTheWholeWaveform := by
  intro s job hidle hbits hline hpos hmax hcfg hwrite hwait
  have hjob : DefinedJob job := ⟨hbits, hline, hpos, hmax⟩
  obtain ⟨d, ds, hds, hrle⟩ := hjob.exec_rleEncode s
  have hplay := playsTo_ok (getsConfigured_bodyStart.mpr hcfg) hwrite hwait d ds
  rw [jobIdle_bodyStart, ← hds] at hplay
  obtain ⟨t, hexec, hframe, hout⟩ := hjob.exec_transmit hidle hplay
  have hwave := hout.wave
  rw [hds, ← List.append_assoc, ← List.append_assoc] at hwave
  exact ⟨t, d, ds, hrle, hexec, hframe.txState, hframe.phase, hframe.queue, hframe.notes, hframe.params, hframe.inputs,
    hframe.answers, hframe.hwAnswers, hframe.hwDraws, hout.lastCfg, hout.pins, hwave⟩

/-- Settles O31: the two ways out of the body without a pulse. -/
theorem transmitConfigurationFailure : Obligations.TransmitConfigurationFailure := by
  intro s job hidle hbits hline hpos hmax hother hfails
  have hjob : DefinedJob job := ⟨hbits, hline, hpos, hmax⟩
  have hcfg : ¬ GetsConfigured job (hwOf s) (bodyStart s) := by
    rw [getsConfigured_bodyStart, GetsConfigured, not_or, not_and_or]
    exact ⟨hother, hfails.imp Bool.eq_false_iff.mp fun hfail => by simp [hfail]⟩
  cases hv : gpioValid s job.gpio with
  | true =>
    have hplay := playsTo_configFail hcfg ((gpioValid_bodyStart s _).trans hv) (rleEncode job.bits (periodOf job))
    rw [jobIdle_bodyStart] at hplay
    obtain ⟨t, hexec, hframe, hout⟩ := hjob.exec_transmit hidle hplay
    exact ⟨t, hexec, hframe.txState, hframe.phase, hframe.queue, hframe.notes, hframe.params, hframe.inputs,
      hframe.answers, hframe.hwAnswers, hframe.hwDraws, fun _ => ⟨hout.lastCfg, hout.pins, hout.wave⟩,
      fun hmissing => absurd (hv.symm.trans hmissing) Bool.true_eq_false.mp⟩
  | false =>
    have hplay := playsTo_noPin hcfg ((gpioValid_bodyStart s _).trans hv) (rleEncode job.bits (periodOf job))
    rw [pin_bodyStart] at hplay
    obtain ⟨t, hexec, hframe, hout⟩ := hjob.exec_transmit hidle hplay
    exact ⟨t, hexec, hframe.txState, hframe.phase, hframe.queue, hframe.notes, hframe.params, hframe.inputs,
      hframe.answers, hframe.hwAnswers, hframe.hwDraws,
      fun hexists => absurd (hexists.symm.trans hv) Bool.true_eq_false.mp,
      fun _ => ⟨hout.lastCfg, hout.pins, by rw [hout.wave, List.append_nil]; rfl⟩⟩

/-- Settles O32: the failing ways out of the body of a configured peripheral. -/
theorem transmitWriteFailureOrTimeout : Obligations.TransmitWriteFailureOrTimeout := by
  intro s job cause hidle hbits hline hpos hmax hv hcfg hfails
  have hjob : DefinedJob job := ⟨hbits, hline, hpos, hmax⟩
  obtain ⟨d, ds, hds, hrle⟩ := hjob.exec_rleEncode s
  have hgets : GetsConfigured job (hwOf s) s := hcfg.imp_right fun hok => ⟨hv, hok⟩
  have hplay := playsTo_fail (getsConfigured_bodyStart.mpr hgets) ((gpioValid_bodyStart s _).trans hv) hfails d ds
  rw [jobIdle_bodyStart, ← hds] at hplay
  obtain ⟨t, hexec, hframe, hout⟩ := hjob.exec_transmit hidle hplay
  have hwave := hout.wave
  simp only [playedItems, min_lt_iff, lt_irrefl, or_false, ← List.append_assoc] at hwave
  exact ⟨t, d, ds, hrle, hexec, hframe.txState, hframe.phase, hframe.queue, hframe.notes, hframe.params, hframe.inputs,
    hframe.answers, hframe.hwAnswers, hframe.hwDraws, hout.lastCfg, hout.pins, hwave⟩

/-! ### A matching configuration (R179) -/

theorem playWaveform_of_matching {job : Job} {s : State} (h : s.lastCfg = some (jobCfg job)) (ds : List Desc)
    (hw : HwOutcome) (reply : HwReply) :
    playWaveform job ds { hw with cfg := reply } s = playWaveform job ds hw s := by
  have hskipped (hw' : HwOutcome) : configure (jobCfg job) hw' s = (s, true) := if_pos h
  rw [playWaveform, playWaveform, hskipped, hskipped]
  rfl

theorem transmitBody_of_matching {job : Job} {s : State} (hbits : job.bits ≠ []) (hcfg : s.lastCfg = some (jobCfg job))
    (hw : HwOutcome) (rest : List HwOutcome) (reply : HwReply) :
    transmitBody job { s with hwAnswers := { hw with cfg := reply } :: rest } =
      transmitBody job { s with hwAnswers := hw :: rest } := by
  simp only [transmitBody, if_neg hbits]
  split
  · rfl
  · split
    · rfl
    · exact congrArg Except.ok (playWaveform_of_matching (s := { s with hwAnswers := rest }) hcfg _ hw reply)

/-- On an idle transmitter `TRANSMIT` depends on the body alone. -/
theorem exec_transmit_congr {job : Job} {s s' : State} (hidle : s.txState = .idle) (hidle' : s'.txState = .idle)
    (hbody : transmitBody job (setTxState .busy s) = transmitBody job (setTxState .busy s')) :
    exec (.transmit job) s = exec (.transmit job) s' := by
  simp only [exec, execTransmit, hidle, hidle', reduceCtorEq, if_false, hbody]

/-- Settles O37: the body runs on the same state with either answer, and reads it the same. -/
theorem matchingConfigurationIsNotRedone : Obligations.MatchingConfigurationIsNotRedone := by
  intro s job hw rest reply hidle hanswers hcfg hbits
  refine exec_transmit_congr hidle hidle ?_
  have hbody := transmitBody_of_matching (s := setTxState .busy s) hbits hcfg hw rest reply
  rw [← hanswers] at hbody
  exact hbody

/-! ### `TRANSMIT` of an empty job (R180 corner cases) -/

theorem setTxState_self {s : State} {c : TxState} (h : s.txState = c) : setTxState c s = s := by
  rw [← h]
  rfl

/-- An empty job has no waveform: the body only re-asserts the idle state (decision D23). -/
theorem exec_transmit_empty {job : Job} {s : State} (hidle : s.txState = .idle) (hbits : job.bits = []) :
    exec (.transmit job) s = .next (answer (.tx .ok) (assertIdle job s)) := by
  have hbody : transmitBody job (setTxState .busy s) = .ok (setTxState .busy (assertIdle job s), .ok) := by
    rw [transmitBody, if_pos hbits, assertIdle_setTxState]
  have hback : returnIdle (setTxState .busy (assertIdle job s)) = assertIdle job s :=
    setTxState_self ((assertIdle_spec job s).1.txState.trans hidle)
  rw [exec_transmit_ok hidle hbody, hback]

/-- Settles O33, by whether the pin exists. -/
theorem emptyTransmitReassertsIdle : Obligations.EmptyTransmitReassertsIdle := by
  intro s job hidle hbits
  obtain ⟨-, -, hexists, hmissing⟩ := assertIdle_spec job s
  refine ⟨_, exec_transmit_empty hidle hbits, fun hv => by rw [hmissing hv]; rfl, fun hv => ?_⟩
  rw [hexists hv]
  exact ⟨rfl, fun q => pinRead_pinWrite s.pin job.gpio.toNat q (jobIdle job s)⟩

end Sys2Proof.Machine
end

section
/-! PROOF. No step leaves a pin pulled low where the idle policy does not (spec/70_reset_and_hazards.md R261,
spec/43_waveform_transmitter.md R181). -/

namespace Sys2Proof.Machine

/-- The idle policy pulls no pin low, the peripheral is configured for a pin that exists, and no pin is low. -/
structure NoPinLow (s : State) : Prop where
  policy : ∀ mode idleHigh, idlePolicy s.params.idlePolicy mode idleHigh ≠ .driveLow
  cfgExists : ∀ c, s.lastCfg = some c → gpioValid s c.pin = true
  pins : ∀ p, pinRead s.pin p ≠ .driveLow

theorem NoPinLow.of_eq {s t : State} (h : NoPinLow s) (hparams : t.params = s.params) (hcfg : t.lastCfg = s.lastCfg)
    (hpin : t.pin = s.pin) : NoPinLow t where
  policy := hparams ▸ h.policy
  cfgExists := by rw [hcfg]; exact fun c hc => gpioValid_congr hparams c.pin ▸ h.cfgExists c hc
  pins := hpin ▸ h.pins

/-! ### Across the body of `transmit` -/

/-- However a waveform ends, the job's pin is left idle or was never written, and a configuration that is left is one
for a pin that exists. -/
theorem playWaveform_leaves {job : Job} {s : State} (hexists : s.lastCfg = some (jobCfg job) → gpioValid s job.gpio = true)
    (hw : HwOutcome) (d : Desc) (ds : List Desc) :
    ∃ cfg last items, LineOutcome job s (playWaveform job (d :: ds) hw s).1 cfg last items ∧
      (cfg ≠ none → cfg = some (jobCfg job) ∧ gpioValid s job.gpio = true) ∧
      (last = jobIdle job s ∨ last = pinRead s.pin job.gpio.toNat) := by
  by_cases hcfg : GetsConfigured job hw s
  · have hv : gpioValid s job.gpio = true := hcfg.elim hexists And.left
    have hfails (cause : HwCause) (h : FailsWith hw cause) := (playsTo_fail hcfg hv h d ds).2
    cases hwrite : hw.write with
    | fail => exact ⟨_, _, _, hfails _ (.inl ⟨rfl, hwrite⟩), by simp [hv], .inl rfl⟩
    | ok =>
      cases hwait : hw.wait with
      | timeout => exact ⟨_, _, _, hfails _ (.inr ⟨rfl, hwrite, hwait⟩), by simp [hv], .inl rfl⟩
      | done => exact ⟨_, _, _, (playsTo_ok hcfg hwrite hwait d ds).2, by simp [hv], .inl rfl⟩
  · cases hv : gpioValid s job.gpio with
    | true => exact ⟨_, _, _, (playsTo_configFail hcfg hv _).2, by simp, .inl rfl⟩
    | false => exact ⟨_, _, _, (playsTo_noPin hcfg hv _).2, by simp, .inr rfl⟩

theorem NoPinLow.pinAfter {s : State} (h : NoPinLow s) (cfg : Cfg) {last : PinState} (hlast : last ≠ .driveLow) (q : Nat) :
    pinAfter s cfg last q ≠ .driveLow := by
  unfold Machine.pinAfter
  split
  · exact hlast
  · split
    · simp
    · exact h.pins q

theorem NoPinLow.playWaveform {s : State} (h : NoPinLow s) (job : Job) (hw : HwOutcome) {ds : List Desc} (hds : ds ≠ []) :
    NoPinLow (playWaveform job ds hw s).1 := by
  obtain ⟨hframe, -, -⟩ := playWaveform_frame job hds hw s
  obtain ⟨d, ds, rfl⟩ := List.exists_cons_of_ne_nil hds
  obtain ⟨cfg, last, items, hline, hcfg, hlast⟩ := playWaveform_leaves (h.cfgExists (jobCfg job)) hw d ds
  have hlow : last ≠ .driveLow := by
    obtain rfl | rfl := hlast
    · exact h.policy job.mode job.idleHigh
    · exact h.pins _
  refine ⟨hframe.params ▸ h.policy, fun c hc => ?_, fun q => hline.pins q ▸ h.pinAfter _ hlow q⟩
  rw [hline.lastCfg] at hc
  obtain ⟨hjob, hv⟩ := hcfg (by simp [hc])
  obtain rfl := Option.some.inj (hc.symm.trans hjob)
  exact hframe.pinExists hv

theorem NoPinLow.assertIdle {s : State} (h : NoPinLow s) (job : Job) : NoPinLow (assertIdle job s) := by
  obtain ⟨-, -, hexists, hmissing⟩ := assertIdle_spec job s
  cases hv : gpioValid s job.gpio with
  | false => exact (hmissing hv).symm ▸ h
  | true =>
    refine hexists hv ▸ ⟨h.policy, h.cfgExists, fun q => ?_⟩
    rw [setPin_pin, pinRead_pinWrite]
    split
    · exact h.policy job.mode job.idleHigh
    · exact h.pins q

theorem NoPinLow.transmitBody {job : Job} {s : State} {r : State × TxResult} (h : NoPinLow s)
    (hbody : transmitBody job s = .ok r) : NoPinLow r.1 := by
  obtain ⟨-, rfl⟩ | ⟨hbits, -, T, -, rfl⟩ := transmitBody_ok_cases hbody
  · exact h.assertIdle job
  · have hdrawn : NoPinLow (afterDraw s) := h.of_eq (afterDraw_params s) (afterDraw_lastCfg s) (afterDraw_pin s)
    exact hdrawn.playWaveform job _ (rleEncode_ne_nil hbits T)

/-! ### Across a step -/

theorem AgentStep.noPinLow {s t : State} (hstep : AgentStep s t) (h : NoPinLow s) : NoPinLow t := by
  cases hstep with
  | blocked => exact h
  | start => exact h.of_eq rfl rfl rfl
  | finish _ hbody => exact (h.transmitBody hbody).of_eq rfl rfl rfl
  | answers => exact h.of_eq rfl rfl rfl
  | queues => exact h.of_eq rfl rfl rfl
  | transmits _ hbody =>
    have hbusy : NoPinLow (setTxState .busy s) := h.of_eq rfl rfl rfl
    exact (hbusy.transmitBody hbody).of_eq rfl rfl rfl

theorem NoPinLow.reinitCore {s : State} (h : NoPinLow s) : NoPinLow (reinitCore s) :=
  ⟨h.policy, by simp [Machine.reinitCore, State.reset], by simp [Machine.reinitCore, State.reset]⟩

/-- Settles O51: a job leaves its pin idle or untouched, the pin handed back floats, and initialisation releases all. -/
theorem noPinIsLeftPulledLow : Obligations.NoPinIsLeftPulledLow := by
  intro s t hpolicy hcfg hpins hstep
  have hinputs (rest : List Input) : NoPinLow (setInputs rest s) := ⟨hpolicy, hcfg, hpins⟩
  have hafter : NoPinLow t := by
    obtain ⟨rest, -, rfl⟩ | ⟨rest, hagent⟩ := step_reset_or_agentStep hstep
    · exact (hinputs rest).reinitCore
    · exact hagent.noPinLow (hinputs rest)
  exact ⟨hafter.policy, hafter.cfgExists, hafter.pins⟩

end Sys2Proof.Machine
end

section
/-! PROOF. What an operation, a producer and a step leave alone (spec/10_state.md R20, R22; spec/20_memory.md R59, R64, R65;
spec/60_exceptions.md R240). -/

namespace Sys2Proof.Machine

/-! ### The twelve pure operations (20_memory.md R59) -/

/-- On every state with these parameters the operation only answers, and answers `a`. -/
def AnswersAlone (i : Instr) (p : Params) (a : Answer) : Prop :=
  ∀ s : State, s.params = p → exec i s = .next { s with answers := s.answers ++ [a] }

/-- A pure operation that completes on some state only answers on every state with the same parameters. -/
theorem answersAlone_of_exec {i : Instr} {s t : State}
    (hpure : i.op ∉ [Op.transmit, .enqueue, .enqueueTransmission, .status]) (h : exec i s = .next t) :
    ∃ a, AnswersAlone i s.params a := by
  cases i with
  | bchCheck p => exact ⟨_, fun _ _ => rfl⟩
  | parity32 w => exact ⟨_, fun _ _ => rfl⟩
  | cwEncode p => exact ⟨_, fun _ _ => rfl⟩
  | cwAddress c f => exact ⟨_, fun _ _ => rfl⟩
  | cwMessage c => exact ⟨_, fun _ _ => rfl⟩
  | textPack m => exact ⟨_, fun _ _ => rfl⟩
  | batchBuild c f m => exact ⟨_, fun _ _ => rfl⟩
  | idleAction m idleHigh => exact ⟨.pinState (idlePolicy s.params.idlePolicy m idleHigh), fun _ hp => by rw [← hp]; rfl⟩
  | bitsAssemble b n i =>
    obtain hover | hroom := Nat.lt_or_ge s.params.preambleMax n.toNat
    · exact ⟨_, fun _ hp => exec_bitsAssemble_allocFail (hp ▸ hover) b i⟩
    · exact ⟨_, fun _ hp => exec_bitsAssemble (hp ▸ hroom) b i⟩
  | bitPeriod n =>
    cases hT : bitPeriod n with
    | none => simp [exec_bitPeriod_refused hT] at h
    | some T => exact ⟨_, fun s' _ => exec_bitPeriod hT s'⟩
  | rleEncode b T =>
    by_cases hzero : T = 0 ∧ b ≠ []
    · simp [exec, execRleEncode, hzero] at h
    · exact ⟨_, fun _ _ => if_neg hzero⟩
  | lineAction m d b =>
    by_cases hline : lineRefused m d = true
    · simp [exec_lineAction_refused hline] at h
    · exact ⟨_, fun _ _ => if_neg hline⟩
  | transmit j => simp [Instr.op] at hpure
  | enqueue j => simp [Instr.op] at hpure
  | enqueueTransmission r => simp [Instr.op] at hpure
  | status => simp [Instr.op] at hpure

/-- Settles O46: on the state at hand the answer is the one on every state with its parameters. -/
theorem pureOperationsOnlyAnswer : Obligations.PureOperationsOnlyAnswer := by
  intro i s t hpure h
  obtain ⟨a, ha⟩ := answersAlone_of_exec hpure h
  exact ⟨a, Host.Outcome.next.inj (h.symm.trans (ha s rfl)), ha⟩

/-! ### Producers (60_exceptions.md R240) -/

/-- The external port serves no `TRANSMIT`, so what it runs only answers or queues one job. -/
theorem exec_external {i : Instr} {s t : State} (hport : portServes .external i.op = true) (h : exec i s = .next t) :
    ∃ (tail : List Job) (a : Answer), tail.length ≤ 1 ∧
      t = { s with queue := s.queue ++ tail, answers := s.answers ++ [a] } := by
  obtain ⟨a, -, rfl⟩ | ⟨job, a, -, -, -, rfl⟩ | ⟨job, r, rfl, -, -, -⟩ := exec_cases h
  · exact ⟨[], a, Nat.zero_le 1, by rw [List.append_nil]; rfl⟩
  · exact ⟨[job], a, le_rfl, rfl⟩
  · cases hport

/-- Settles O47: a request that is run is one of the port's two operations, and any other only gets its answer. -/
theorem producersTouchOnlyTheTailOfTheQueue : Obligations.ProducersTouchOnlyTheTailOfTheQueue := by
  intro s t bytes rest hinputs hstep
  cases hfetch : fetchRequest .external bytes with
  | run i =>
    rw [step_of_request hinputs hfetch] at hstep
    exact exec_external (fetchRequest_run hfetch).1 hstep
  | invalid =>
    rw [step_of_invalid hinputs hfetch] at hstep
    cases hstep
    exact ⟨[], .invalid, Nat.zero_le 1, by rw [List.append_nil]; rfl⟩
  | incomplete =>
    rw [step_of_incomplete hinputs hfetch] at hstep
    cases hstep

/-! ### The queue (10_state.md R22) -/

theorem AgentStep.queue {s t : State} (hstep : AgentStep s t) :
    t.queue = s.queue ∨ (∃ job, t.queue = s.queue ++ [job]) ∨
    ∃ job, s.queue = job :: t.queue ∧ s.phase = .waiting ∧ t.phase = .transmitting job := by
  cases hstep with
  | blocked => exact .inl rfl
  | @start job later hphase hqueue => exact .inr (.inr ⟨job, hqueue, hphase, rfl⟩)
  | finish _ hbody => exact .inl (transmitBody_frame hbody).1.queue
  | answers => exact .inl rfl
  | @queues job => exact .inr (.inl ⟨job, rfl⟩)
  | transmits _ hbody => exact .inl (transmitBody_frame hbody).1.queue

/-- Settles O48, over the agents' atomic steps; only an initialisation empties the queue. -/
theorem queueIsFirstInFirstOut : Obligations.QueueIsFirstInFirstOut := by
  intro s t hstep
  obtain ⟨rest, hreset, rfl⟩ | ⟨rest, hagent⟩ := step_reset_or_agentStep hstep
  · exact .inr (.inr (.inr ⟨rest, hreset, rfl⟩))
  · obtain hsame | happend | hstart := hagent.queue
    · exact .inl hsame
    · exact .inr (.inl happend)
    · exact .inr (.inr (.inl hstart))

/-! ### Reset and the consumer's turn (10_state.md R40, 70_reset_and_hazards.md R250, 20_memory.md R63) -/

theorem step_of_reset {s : State} {rest : List Input} (h : s.inputs = .reset :: rest) :
    step s = .next (reinitCore (setInputs rest s)) := by
  simp only [step, h]

/-- Settles O1: the step is that of a consumer blocked on the empty queue. -/
theorem resetStateIsAsTabulated : Obligations.ResetStateIsAsTabulated :=
  ⟨rfl, rfl, rfl, rfl, pinRead_nil, rfl, rfl, (step_of_no_inputs rfl).trans (consumerTurn_of_empty rfl rfl)⟩

/-- Settles O2: the reset state is what initialisation makes of it, and its parameters are legal. -/
theorem resetMeetsInvariant : Obligations.ResetMeetsInvariant :=
  coreInv_reinitCore (s := State.reset) (by decide)

/-- Settles O5: the turn is next in the inputs, or nothing is. -/
theorem stepGivesTheConsumerItsTurn : Obligations.StepGivesTheConsumerItsTurn :=
  fun _ => ⟨step_of_no_inputs, fun _ => step_of_consumer⟩

/-- Settles O6: initialisation keeps the parameters, the inputs and the oracle's fields of the old state alone. -/
theorem initialisationDiscardsJobs : Obligations.InitialisationDiscardsJobs :=
  fun _ _ => step_of_reset

end Sys2Proof.Machine
end
